-- ==== Sys2Proof/Word.lean ====
section
/-! DEFINITION. The cell of this machine: a register, a memory cell, an opcode and an operand are each
one byte (`W` = 8, 00_scope.md R7). -/

namespace Sys2Proof

/-- A byte, bits 7 to 0, always read as an unsigned number 0..255 (00_scope.md R9, R10). -/
abbrev Byte := BitVec 8

end Sys2Proof
end

