-- ==== Sys2Proof/Config.lean ====
section
/-! DEFINITION. The parameters of 00_scope.md R7 that a model takes: `MEM_SIZE`, `SP_INIT`, `OPMAP`
and `EXT_BITWISE`, with the conditions the spec puts on them. Their default values stand in
Decode.lean, beside the encoding tables. No free value is needed: the spec leaves none
(93_implementation_defined.md section 1). -/

namespace Sys2Proof

/-- The 24 mnemonics of 30_encoding.md R75: the keys of `OPMAP`, and the op tags the ALU is asked for. -/
inductive Mnemonic where
  | nop | hlt | ret | iret
  | push | pop | prn | call
  | jmp | jeq | jne | ldi
  | add | sub | mul | div | mod | cmp
  | and | or | xor | not | shl | shr
  deriving DecidableEq, Repr

/-- Every mnemonic once, in the order of 30_encoding.md R76. -/
def Mnemonic.all : List Mnemonic :=
  [.nop, .hlt, .ret, .iret, .push, .pop, .prn, .call, .jmp, .jeq, .jne, .ldi,
   .add, .sub, .mul, .div, .mod, .cmp, .and, .not, .or, .xor, .shl, .shr]

/-- The six starred mnemonics, decoded only when `EXT_BITWISE` is true (00_scope.md R8). -/
def Mnemonic.isBitwise : Mnemonic → Bool
  | .and | .or | .xor | .not | .shl | .shr => true
  | .nop | .hlt | .ret | .iret | .push | .pop | .prn | .call | .jmp | .jeq | .jne | .ldi
  | .add | .sub | .mul | .div | .mod | .cmp => false

/-- `OPMAP`: one opcode byte for each mnemonic (30_encoding.md R76). Plain data, so that it can be
compared and written out. -/
structure OpMap where
  nop : Byte
  hlt : Byte
  ret : Byte
  iret : Byte
  push : Byte
  pop : Byte
  prn : Byte
  call : Byte
  jmp : Byte
  jeq : Byte
  jne : Byte
  ldi : Byte
  add : Byte
  sub : Byte
  mul : Byte
  div : Byte
  mod : Byte
  cmp : Byte
  and : Byte
  or : Byte
  xor : Byte
  not : Byte
  shl : Byte
  shr : Byte
  deriving DecidableEq, Repr

/-- `OPMAP(m)`. -/
def OpMap.code (p : OpMap) : Mnemonic → Byte
  | .nop => p.nop
  | .hlt => p.hlt
  | .ret => p.ret
  | .iret => p.iret
  | .push => p.push
  | .pop => p.pop
  | .prn => p.prn
  | .call => p.call
  | .jmp => p.jmp
  | .jeq => p.jeq
  | .jne => p.jne
  | .ldi => p.ldi
  | .add => p.add
  | .sub => p.sub
  | .mul => p.mul
  | .div => p.div
  | .mod => p.mod
  | .cmp => p.cmp
  | .and => p.and
  | .or => p.or
  | .xor => p.xor
  | .not => p.not
  | .shl => p.shl
  | .shr => p.shr

/-- The parameters of 00_scope.md R7, in its order; `W`, `NREG` and `SP_REG` are fixed. -/
structure Config where
  /-- `MEM_SIZE`: how many memory cells there are. -/
  memSize : Nat
  /-- `SP_INIT`: reset value of r7, and the bound a pop checks. -/
  spInit : Byte
  /-- `OPMAP`: the opcode byte of each mnemonic. -/
  opMap : OpMap
  /-- `EXT_BITWISE`: whether AND, OR, XOR, NOT, SHL and SHR are decoded. -/
  extBitwise : Bool
  deriving DecidableEq, Repr

/-- The mnemonic is in the decode table of this configuration (30_encoding.md R78). -/
def Config.enabled (c : Config) (m : Mnemonic) : Bool :=
  !m.isBitwise || c.extBitwise

/-- The decode table's mnemonics: 18, or 24 with `EXT_BITWISE` (30_encoding.md R78). -/
def Config.enabledMnemonics (c : Config) : List Mnemonic :=
  Mnemonic.all.filter c.enabled

/-- `MEM_SIZE` is a power of two (00_scope.md R7). -/
def Config.sizeOk (c : Config) : Bool :=
  2 ^ c.memSize.log2 == c.memSize

/-- `1 <= SP_INIT <= min(MEM_SIZE, 255)`, and `SP_INIT` = 0xF4 when `MEM_SIZE` = 256 (00_scope.md R7,
92_eei_decisions.md D2). The bound 255 holds of every byte. -/
def Config.spInitOk (c : Config) : Bool :=
  decide (1 ≤ c.spInit.toNat) && decide (c.spInit.toNat ≤ c.memSize)
    && (c.memSize != 256 || c.spInit == 0xF4#8)

/-- No two enabled mnemonics share an opcode byte (30_encoding.md R77). -/
def Config.opMapInjective (c : Config) : Bool :=
  decide (c.enabledMnemonics.map c.opMap.code).Nodup

/-- A configuration the spec admits. -/
def Config.wf (c : Config) : Bool :=
  c.sizeOk && c.spInitOk && c.opMapInjective

end Sys2Proof
end

