-- ==== Sys2Proof/Syntax.lean ====
section
/-! DEFINITION. The instructions: one constructor for each of the 24 rows of spec/opcode_table.json.
An operand is the operand byte itself (30_encoding.md R72, R73): a register operand outside 0..7 is an
instruction that decodes and then faults at its register check (R80), so the syntax can say it. -/

namespace Sys2Proof

/-- An instruction with the operand bytes its format uses (30_encoding.md R70). `rA` and `rB` are
register operands, `imm` is a literal. -/
inductive Instr where
  /-- NOP, format F0 (44_control_io.md R170). -/
  | nop
  /-- HLT, format F0 (44_control_io.md R171). -/
  | hlt
  /-- RET, format F0 (43_stack_call.md R153). -/
  | ret
  /-- IRET, format F0 (44_control_io.md R172). -/
  | iret
  /-- PUSH rA, format F1R (43_stack_call.md R150). -/
  | push (rA : Byte)
  /-- POP rA, format F1R (43_stack_call.md R151). -/
  | pop (rA : Byte)
  /-- PRN rA, format F1R (44_control_io.md R174). -/
  | prn (rA : Byte)
  /-- CALL rA, imm8, format F2RL (43_stack_call.md R152). -/
  | call (rA imm : Byte)
  /-- JMP rA, format F1R (42_compare_branch.md R142). -/
  | jmp (rA : Byte)
  /-- JEQ rA, format F1R (42_compare_branch.md R143). -/
  | jeq (rA : Byte)
  /-- JNE rA, format F1R (42_compare_branch.md R144). -/
  | jne (rA : Byte)
  /-- LDI rA, imm8, format F2RL (44_control_io.md R173). -/
  | ldi (rA imm : Byte)
  /-- ADD rA, rB, format F2RR (41_alu.md R119). -/
  | add (rA rB : Byte)
  /-- SUB rA, rB, format F2RR (41_alu.md R120). -/
  | sub (rA rB : Byte)
  /-- MUL rA, rB, format F2RR (41_alu.md R121). -/
  | mul (rA rB : Byte)
  /-- DIV rA, rB, format F2RR (41_alu.md R122). -/
  | div (rA rB : Byte)
  /-- MOD rA, rB, format F2RR (41_alu.md R123). -/
  | mod (rA rB : Byte)
  /-- CMP rA, rB, format F2RR (42_compare_branch.md R140). -/
  | cmp (rA rB : Byte)
  /-- AND rA, rB, format F2RR, only with `EXT_BITWISE` (41_alu.md R124). -/
  | and (rA rB : Byte)
  /-- OR rA, rB, format F2RR, only with `EXT_BITWISE` (41_alu.md R125). -/
  | or (rA rB : Byte)
  /-- XOR rA, rB, format F2RR, only with `EXT_BITWISE` (41_alu.md R126). -/
  | xor (rA rB : Byte)
  /-- NOT rA, format F1R, only with `EXT_BITWISE` (41_alu.md R127). -/
  | not (rA : Byte)
  /-- SHL rA, rB, format F2RR, only with `EXT_BITWISE` (41_alu.md R128). -/
  | shl (rA rB : Byte)
  /-- SHR rA, rB, format F2RR, only with `EXT_BITWISE` (41_alu.md R129). -/
  | shr (rA rB : Byte)
  deriving DecidableEq, Repr

/-- The mnemonic of an instruction. -/
def Instr.mnemonic : Instr → Mnemonic
  | .nop => .nop
  | .hlt => .hlt
  | .ret => .ret
  | .iret => .iret
  | .push _ => .push
  | .pop _ => .pop
  | .prn _ => .prn
  | .call _ _ => .call
  | .jmp _ => .jmp
  | .jeq _ => .jeq
  | .jne _ => .jne
  | .ldi _ _ => .ldi
  | .add _ _ => .add
  | .sub _ _ => .sub
  | .mul _ _ => .mul
  | .div _ _ => .div
  | .mod _ _ => .mod
  | .cmp _ _ => .cmp
  | .and _ _ => .and
  | .or _ _ => .or
  | .xor _ _ => .xor
  | .not _ => .not
  | .shl _ _ => .shl
  | .shr _ _ => .shr

end Sys2Proof
end

