-- ==== Sys2Proof/WellFormed.lean ====
section
/-! DEFINITION. Which instructions are well formed: in the decode table of the configuration, with
every register operand in 0..7 (30_encoding.md R72, R78). -/

namespace Sys2Proof

/-- The operand bytes that the format marks as register indices, in the order they are checked: `A`,
then `B` (40_engine.md R95). Literal bytes are not among them. -/
def Instr.registerOperands : Instr → List Byte
  | .nop | .hlt | .ret | .iret => []
  | .push rA | .pop rA | .prn rA | .jmp rA | .jeq rA | .jne rA | .not rA => [rA]
  | .call rA _ | .ldi rA _ => [rA]
  | .add rA rB | .sub rA rB | .mul rA rB | .div rA rB | .mod rA rB | .cmp rA rB => [rA, rB]
  | .and rA rB | .or rA rB | .xor rA rB | .shl rA rB | .shr rA rB => [rA, rB]

/-- Every register operand is in 0..7 (30_encoding.md R72). -/
def Instr.registersValid (i : Instr) : Bool :=
  i.registerOperands.all fun r => decide (r.toNat < 8)

/-- The instruction is enabled, and its register operands are valid. -/
def Instr.wf (c : Config) (i : Instr) : Bool :=
  c.enabled i.mnemonic && i.registersValid

end Sys2Proof
end

