-- ==== Sys2Proof/Decode.lean ====
section
/-! DEFINITION. The encoding tables of 30_encoding.md, the decoder and the encoder written from them,
and the default configuration of 00_scope.md R7. -/

namespace Sys2Proof

/-- The four formats of 30_encoding.md R70. -/
inductive Format where
  | f0 | f1r | f2rl | f2rr
  deriving DecidableEq, Repr

/-- The format column of 30_encoding.md R70. -/
def Mnemonic.format : Mnemonic → Format
  | .nop | .hlt | .ret | .iret => .f0
  | .push | .pop | .prn | .jmp | .jeq | .jne | .not => .f1r
  | .ldi | .call => .f2rl
  | .add | .sub | .mul | .div | .mod | .cmp | .and | .or | .xor | .shl | .shr => .f2rr

/-- How many operand bytes a format uses (30_encoding.md R70). -/
def Format.arity : Format → Nat
  | .f0 => 0
  | .f1r => 1
  | .f2rl => 2
  | .f2rr => 2

/-- The arity of 30_encoding.md R75, from the table and never from opcode bits (R71, R81). -/
def Mnemonic.arity (m : Mnemonic) : Nat :=
  m.format.arity

/-- The default `OPMAP` of 30_encoding.md R76. HLT, PRN and LDI are the source's values; the others are
general knowledge in the spec itself (PRESUMED, unsafe: notes/assumptions/2.md). -/
def OpMap.default : OpMap where
  nop := 0x00
  hlt := 0x01
  ret := 0x11
  iret := 0x13
  push := 0x45
  pop := 0x46
  prn := 0x47
  call := 0x50
  jmp := 0x54
  jeq := 0x55
  jne := 0x56
  ldi := 0x82
  add := 0xA0
  sub := 0xA1
  mul := 0xA2
  div := 0xA3
  mod := 0xA4
  cmp := 0xA7
  and := 0xA8
  not := 0x69
  or := 0xAA
  xor := 0xAB
  shl := 0xAC
  shr := 0xAD

/-- The default configuration of 00_scope.md R7. -/
def Config.default : Config where
  memSize := 256
  spInit := 0xF4
  opMap := OpMap.default
  extBitwise := false

/-- The default configuration with the optional group switched on: the one in which every row of
spec/opcode_table.json is an instruction (its `enabled_when` column). -/
def Config.allRows : Config :=
  { Config.default with extBitwise := true }

/-- `DECODE(op)`: the enabled mnemonic whose opcode byte is `op` (30_encoding.md R78). -/
def Config.lookup (c : Config) (op : Byte) : Option Mnemonic :=
  c.enabledMnemonics.find? fun m => c.opMap.code m == op

/-- The instruction a mnemonic makes with the operand bytes `A` and `B`; bytes its format does not use
are dropped (30_encoding.md R70, R74). -/
def Mnemonic.toInstr (m : Mnemonic) (a b : Byte) : Instr :=
  match m with
  | .nop => .nop
  | .hlt => .hlt
  | .ret => .ret
  | .iret => .iret
  | .push => .push a
  | .pop => .pop a
  | .prn => .prn a
  | .call => .call a b
  | .jmp => .jmp a
  | .jeq => .jeq a
  | .jne => .jne a
  | .ldi => .ldi a b
  | .add => .add a b
  | .sub => .sub a b
  | .mul => .mul a b
  | .div => .div a b
  | .mod => .mod a b
  | .cmp => .cmp a b
  | .and => .and a b
  | .or => .or a b
  | .xor => .xor a b
  | .not => .not a
  | .shl => .shl a b
  | .shr => .shr a b

/-- Why a decode is rejected: there is one reason (30_encoding.md R79). -/
inductive DecodeReject where
  /-- The opcode byte is in no row of the enabled table. The engine faults (40_engine.md R94); safe. -/
  | unknownOpcode (op : Byte)
  deriving DecidableEq, Repr

/-- Decode the three fetched bytes (40_engine.md R93). Total: every opcode byte is one instruction or
rejected by name (30_encoding.md R78, R79). -/
def decode (c : Config) (op a b : Byte) : Except DecodeReject Instr :=
  match c.lookup op with
  | some m => .ok (m.toInstr a b)
  | none => .error (.unknownOpcode op)

/-- The operand bytes of an instruction, in order (30_encoding.md R70). -/
def Instr.operandBytes : Instr → List Byte
  | .nop | .hlt | .ret | .iret => []
  | .push rA | .pop rA | .prn rA | .jmp rA | .jeq rA | .jne rA | .not rA => [rA]
  | .call rA imm | .ldi rA imm => [rA, imm]
  | .add rA rB | .sub rA rB | .mul rA rB | .div rA rB | .mod rA rB | .cmp rA rB => [rA, rB]
  | .and rA rB | .or rA rB | .xor rA rB | .shl rA rB | .shr rA rB => [rA, rB]

/-- The bytes of an instruction at increasing addresses: the opcode, then its operands
(30_encoding.md R70, 20_memory.md R55). -/
def encode (c : Config) (i : Instr) : List Byte :=
  c.opMap.code i.mnemonic :: i.operandBytes

/-- Byte `k` of a word whose first byte is its least significant one. -/
def wordByte (w k : Nat) : Byte :=
  BitVec.ofNat 8 (w / 256 ^ k)

/-- The instruction the decoder reads from a row of spec/opcode_table.json: the word's bytes in
order, bits above `nbits` zero, decoded in the configuration in which every row is enabled
(notes/assumptions/6.md). -/
def decodeTableWord (nbits w : Nat) : Option Instr :=
  let v := w % 2 ^ nbits
  (decode Config.allRows (wordByte v 0) (wordByte v 1) (wordByte v 2)).toOption

end Sys2Proof
end

