-- ==== Sys2Proof/Machine/State.lean ====
section
/-! DEFINITION. The state of the CORE (10_state.md R20) as plain data, the reasons a step stops, and
the state after reset (10_state.md R34). -/

namespace Sys2Proof.Machine

/-- What an `OutOfRangeAccess` fault was about (60_exceptions.md R180). -/
inductive AccessKind where
  | memory
  | register
  deriving DecidableEq, Repr

/-- The faults of the CORE with the information each records (60_exceptions.md R180). They are values of
`RUN`, not outcomes of `step`: taking one is a next state (R182). -/
inductive FaultCause where
  /-- Code 1: an op tag the ALU does not know. No step raises it (41_alu.md R115). -/
  | unsupportedOperation
  /-- Code 2: DIV or MOD by zero. -/
  | divideByZero
  /-- Code 3: POP or RET with SP at or above `SP_INIT`. -/
  | stackUnderflow
  /-- Code 4: PUSH or CALL with SP = 0. -/
  | stackOverflow
  /-- Code 5: the memory address, or the register index byte, that is out of range. -/
  | outOfRangeAccess (kind : AccessKind) (value : Nat)
  /-- Code 6: the opcode byte that is in no row of the table. -/
  | unknownOpcode (op : Byte)
  deriving DecidableEq, Repr

/-- `RUN`: the engine state (10_state.md R32). -/
inductive EngineState where
  | running
  | halted
  | faulted (cause : FaultCause)
  deriving DecidableEq, Repr

/-- `MEM` as (address, byte) pairs in the canonical form `Memory.wf` of Ops.lean: addresses rising, no
entry equal to the 0 that an unlisted address reads as (10_state.md R34). -/
abbrev Memory := List Host.Cell

/-- The state record of 10_state.md R20, and beside it the configuration (DESIGN CHOICE, safe:
notes/assumptions/1.md). -/
structure State where
  /-- The parameters of 00_scope.md R7; no step changes them. -/
  cfg : Config
  /-- The general registers r0 to r7 (10_state.md R21). -/
  x : Vector Byte 8
  /-- The program counter, a natural number (10_state.md R27, R28). -/
  pc : Nat
  /-- The flags register (10_state.md R29). -/
  fl : Byte
  /-- The engine state (10_state.md R32). -/
  run : EngineState
  /-- Memory (20_memory.md R50). -/
  mem : Memory
  /-- The bytes PRN has emitted, in order (10_state.md R33). -/
  out : List Byte
  deriving DecidableEq, Repr

/-- Why `step` answers no next state. Both say that the engine is in a terminal state, which has no
step (40_engine.md R90; DESIGN CHOICE, safe: notes/assumptions/4.md). -/
inductive Fault where
  /-- Raised by `step` alone, when `RUN` is `Halted`. Safe: no next state is claimed. -/
  | engineHalted
  /-- Raised by `step` alone, when `RUN` is `Faulted`. Safe: no next state is claimed. -/
  | engineFaulted (cause : FaultCause)
  deriving DecidableEq, Repr

/-- What the model refuses to run. No instruction is refused: the last three are `boot`'s. -/
inductive Refusal where
  /-- Kept for an arm of `exec` without a meaning; no arm raises it. Safe. -/
  | notModelled (mnemonic : String)
  /-- Raised by `boot` for parameters outside 00_scope.md R7 or 30_encoding.md R77. Safe. -/
  | illegalConfiguration
  /-- Raised by `boot` for an image longer than memory (70_reset_and_hazards.md R204). Safe. -/
  | imageTooLong (length : Nat)
  /-- Raised by `boot` for an image with a value above 255 (70_reset_and_hazards.md R204). Safe. -/
  | imageValueOutOfRange
  deriving DecidableEq, Repr

/-- The reset state of a configuration, with an empty image (10_state.md R34, 70_reset_and_hazards.md R200):
every register 0 but r7 = `SP_INIT`, `pc` = 0, `FL` = 0, `Running`, memory all 0, nothing emitted. -/
def State.resetWith (c : Config) : State where
  cfg := c
  x := #v[0, 0, 0, 0, 0, 0, 0, c.spInit]
  pc := 0
  fl := 0
  run := .running
  mem := []
  out := []

/-- The machine right after reset in the default configuration (00_scope.md R7). -/
def State.reset : State :=
  State.resetWith Config.default

end Sys2Proof.Machine
end

