-- ==== Sys2Proof/Machine/Ops.lean ====
section
/-! DEFINITION. The named operations over memory, registers, `pc`, `OUT` and `RUN`, taking a fault, and
fetch. Everything a meaning does to the state goes through these. -/

namespace Sys2Proof.Machine

/-! ## Memory -/

/-- What a cell that nothing has written reads as (10_state.md R34). -/
def Memory.unlisted : Byte := 0

/-- `MEM[a]`. -/
def Memory.read (m : Memory) (a : Nat) : Byte :=
  match m with
  | [] => Memory.unlisted
  | (b, v) :: rest => if a = b then v else Memory.read rest a

/-- Memory with cell `a` holding `v`, in canonical form again: writing what an unlisted cell reads as
removes the entry. -/
def Memory.write (m : Memory) (a : Nat) (v : Byte) : Memory :=
  match m with
  | [] => if v = Memory.unlisted then [] else [(a, v)]
  | (b, w) :: rest =>
    if a < b then
      if v = Memory.unlisted then (b, w) :: rest else (a, v) :: (b, w) :: rest
    else if a = b then
      if v = Memory.unlisted then rest else (a, v) :: rest
    else
      (b, w) :: Memory.write rest a v

/-- The canonical form from address `lo` up. -/
def Memory.wfFrom (lo : Nat) (m : Memory) : Bool :=
  match m with
  | [] => true
  | (a, v) :: rest => decide (lo ≤ a) && decide (v ≠ Memory.unlisted) && Memory.wfFrom (a + 1) rest

/-- The canonical form: addresses strictly rising, no entry equal to what an unlisted address reads as. -/
def Memory.wf (m : Memory) : Bool :=
  Memory.wfFrom 0 m

/-- Every listed address is one of the `n` cells there are. -/
def Memory.below (n : Nat) (m : Memory) : Bool :=
  m.all fun c => decide (c.1 < n)

/-- Memory with the bytes `bs` written from address `a` up (70_reset_and_hazards.md R203). -/
def Memory.load (m : Memory) (a : Nat) (bs : List Byte) : Memory :=
  match bs with
  | [] => m
  | b :: rest => Memory.load (Memory.write m a b) (a + 1) rest

/-- `MemRead(a, 1)`: an address at or past `MEM_SIZE` faults, with no wraparound (20_memory.md R53, R54). -/
def State.memRead (s : State) (a : Nat) : Except FaultCause Byte :=
  if a < s.cfg.memSize then .ok (s.mem.read a)
  else .error (.outOfRangeAccess .memory a)

/-- `MemWrite(a, 1, v)`: an address at or past `MEM_SIZE` faults, with no wraparound (20_memory.md R53, R54). -/
def State.memWrite (s : State) (a : Nat) (v : Byte) : Except FaultCause State :=
  if a < s.cfg.memSize then .ok { s with mem := s.mem.write a v }
  else .error (.outOfRangeAccess .memory a)

/-! ## Registers, pc, OUT -/

/-- `mask8(v)`: the exact result narrowed to a cell (00_scope.md R10, 10_state.md R22). -/
def mask8 (v : Int) : Byte :=
  BitVec.ofInt 8 v

/-- `x[r]`. No register is hardwired (10_state.md R24). -/
def State.reg (s : State) (r : Fin 8) : Byte :=
  s.x[r]

/-- `x[r] <- v` (10_state.md R22, R24). -/
def State.setReg (s : State) (r : Fin 8) (v : Byte) : State :=
  { s with x := s.x.set r v }

/-- `SP_REG`: register 7 is the stack pointer (00_scope.md R7, 10_state.md R25). -/
def spReg : Fin 8 := 7

/-- SP. -/
def State.sp (s : State) : Byte :=
  s.reg spReg

/-- `pc <- target`: the engine leaves `pc` as the handler set it (40_engine.md R97). -/
def State.jump (s : State) (target : Byte) : State :=
  { s with pc := target.toNat }

/-- The engine's advance, `pc <- pc + 1 + arity(m)`, after a handler that did not set `pc`
(40_engine.md R97). It does not wrap (10_state.md R28). -/
def State.advance (s : State) (m : Mnemonic) : State :=
  { s with pc := s.pc + 1 + m.arity }

/-- `emit(v)` (00_scope.md R11, 10_state.md R33). -/
def State.emit (s : State) (v : Byte) : State :=
  { s with out := s.out ++ [v] }

/-! ## Taking a fault, and the graceful stop

There is no return from a fault (60_exceptions.md R183); the one instruction named for a return, IRET,
is a halt (44_control_io.md R172). -/

/-- The numeric code of a fault (60_exceptions.md R180). No program can see it. -/
def FaultCause.code : FaultCause → Nat
  | .unsupportedOperation => 1
  | .divideByZero => 2
  | .stackUnderflow => 3
  | .stackOverflow => 4
  | .outOfRangeAccess _ _ => 5
  | .unknownOpcode _ => 6

/-- Taking a fault: only `RUN` changes; `pc` still points at the opcode (60_exceptions.md R182). -/
def State.takeFault (s : State) (f : FaultCause) : State :=
  { s with run := .faulted f }

/-- `halt` (00_scope.md R11). -/
def State.halt (s : State) : State :=
  { s with run := .halted }

/-- How a step that began in `s` ends: with the state its handler made, or, where something was raised,
with `s` itself and the fault taken, every write of the step discarded (40_engine.md R99). -/
def finish (s : State) (r : Except FaultCause State) : Host.Outcome State Fault Refusal :=
  match r with
  | .ok t => .next t
  | .error f => .next (s.takeFault f)

/-! ## The stack unit's shared steps -/

/-- The first half of a push: SP = 0 faults, else SP moves down by one (43_stack_call.md R154). The store
at the new SP is `memWrite`, which makes the range check of R150 and R152. -/
def State.openSlot (s : State) : Except FaultCause State :=
  if s.sp = 0 then .error .stackOverflow
  else .ok (s.setReg spReg (mask8 (s.sp.toNat - 1)))

/-- The first half of a pop: SP at or above `SP_INIT` faults, else the byte at SP (43_stack_call.md R154). -/
def State.stackTop (s : State) : Except FaultCause Byte :=
  if s.cfg.spInit.toNat ≤ s.sp.toNat then .error .stackUnderflow
  else s.memRead s.sp.toNat

/-- The second half of a pop: SP moves up by one, from the value it holds now (43_stack_call.md R151, R153). -/
def State.closeSlot (s : State) : State :=
  s.setReg spReg (mask8 (s.sp.toNat + 1))

/-! ## Fetch and decode -/

/-- The three bytes held for the rest of the step (40_engine.md R92, 10_state.md R35). -/
structure Latch where
  op : Byte
  a : Byte
  b : Byte
  deriving DecidableEq, Repr

/-- Fetch `MEM[pc]`, `MEM[pc+1]`, `MEM[pc+2]` on every step, whatever the opcode; the first address that is
not in memory faults (40_engine.md R91, R92). Reads have no side effect, so checking each address
as it is read is the same as checking all three first. -/
def State.fetch (s : State) : Except FaultCause Latch := do
  let op ← s.memRead s.pc
  let a ← s.memRead (s.pc + 1)
  let b ← s.memRead (s.pc + 2)
  return { op, a, b }

/-- Decode the latched bytes; a byte that is in no row faults (40_engine.md R93, R94). -/
def State.decodeLatch (s : State) (l : Latch) : Except FaultCause Instr :=
  match decode s.cfg l.op l.a l.b with
  | .ok i => .ok i
  | .error (.unknownOpcode op) => .error (.unknownOpcode op)

/-- Fetch, then decode: the instruction the step runs, or the fault met first. -/
def State.nextInstr (s : State) : Except FaultCause Instr := do
  let l ← s.fetch
  s.decodeLatch l

/-! ## Placing one instruction where the next step fetches -/

/-- The configuration in which `op` can decode: `EXT_BITWISE` is switched on where only that is missing
(00_scope.md R8; notes/assumptions/6.md). -/
def configRunning (c : Config) (op : Byte) : Config :=
  match c.lookup op with
  | some _ => c
  | none =>
    match ({ c with extBitwise := true } : Config).lookup op with
    | some _ => { c with extBitwise := true }
    | none => c

/-- The three bytes of word `w` at `pc`, `pc+1` and `pc+2`, where those cells exist. -/
def State.placeWord (s : State) (w : Nat) : State :=
  if s.pc + 2 < s.cfg.memSize then
    { s with
      cfg := configRunning s.cfg (wordByte w 0)
      mem := s.mem.load s.pc [wordByte w 0, wordByte w 1, wordByte w 2] }
  else s

end Sys2Proof.Machine
end

