-- ==== Sys2Proof/Machine/Operands.lean ====
section
/-! DEFINITION. The operand forms: a register operand, a pair of them, and a literal. -/

namespace Sys2Proof.Machine

/-- A register operand: the byte itself, valid in 0..7, never masked (30_encoding.md R72). Outside that
range the step faults before the handler runs (40_engine.md R95). -/
def registerOperand (byte : Byte) : Except FaultCause (Fin 8) :=
  if h : byte.toNat < 8 then .ok ⟨byte.toNat, h⟩
  else .error (.outOfRangeAccess .register byte.toNat)

/-- Two register operands: `A` is checked before `B` (40_engine.md R95). -/
def registerPair (byteA byteB : Byte) : Except FaultCause (Fin 8 × Fin 8) := do
  let a ← registerOperand byteA
  let b ← registerOperand byteB
  return (a, b)

/-- A literal operand: the byte, not extended, scaled or checked (30_encoding.md R73). -/
def literalOperand (byte : Byte) : Byte :=
  byte

/-- The operand byte that names register `r`. -/
def registerByte (r : Fin 8) : Byte :=
  BitVec.ofNat 8 r.val

end Sys2Proof.Machine
end

