-- ==== Sys2Proof/Machine/Alu.lean ====
section
/-! DEFINITION. The ALU as pure functions (41_alu.md R110 to R115) and the eleven ALU instructions
(R116 to R129). -/

namespace Sys2Proof.Machine

/-! ## The functions -/

/-- 41_alu.md R111. -/
def aluAdd (a b : Byte) : Byte := mask8 (a.toNat + b.toNat)

/-- 41_alu.md R111. -/
def aluSub (a b : Byte) : Byte := mask8 (a.toNat - b.toNat)

/-- 41_alu.md R111. -/
def aluMul (a b : Byte) : Byte := mask8 (a.toNat * b.toNat)

/-- 41_alu.md R112: unsigned, truncating; zero divisor faults. -/
def aluDiv (a b : Byte) : Except FaultCause Byte :=
  if b = 0 then .error .divideByZero else .ok (mask8 (a.toNat / b.toNat : Nat))

/-- 41_alu.md R112: unsigned remainder; zero divisor faults. -/
def aluMod (a b : Byte) : Except FaultCause Byte :=
  if b = 0 then .error .divideByZero else .ok (mask8 (a.toNat % b.toNat : Nat))

/-- 41_alu.md R113. -/
def aluAnd (a b : Byte) : Byte := a &&& b

/-- 41_alu.md R113. -/
def aluOr (a b : Byte) : Byte := a ||| b

/-- 41_alu.md R113. -/
def aluXor (a b : Byte) : Byte := a ^^^ b

/-- 41_alu.md R113: each bit inverted, 255 - a. -/
def aluNot (a : Byte) : Byte := mask8 (255 - a.toNat)

/-- 41_alu.md R114: the amount is taken modulo 8, zeros enter at bit 0. -/
def aluShl (a b : Byte) : Byte := mask8 (a.toNat * 2 ^ (b.toNat % 8) : Nat)

/-- 41_alu.md R114: the amount is taken modulo 8, zeros enter at bit 7. -/
def aluShr (a b : Byte) : Byte := mask8 (a.toNat / 2 ^ (b.toNat % 8) : Nat)

/-- `apply(op, a, b)` (41_alu.md R110). An op tag is a mnemonic; a tag that is none of the eleven is
unknown and faults (R115), which no instruction presents. NOT takes only `a`. -/
def aluApply (op : Mnemonic) (a b : Byte) : Except FaultCause Byte :=
  match op with
  | .add => .ok (aluAdd a b)
  | .sub => .ok (aluSub a b)
  | .mul => .ok (aluMul a b)
  | .div => aluDiv a b
  | .mod => aluMod a b
  | .and => .ok (aluAnd a b)
  | .or => .ok (aluOr a b)
  | .xor => .ok (aluXor a b)
  | .not => .ok (aluNot a)
  | .shl => .ok (aluShl a b)
  | .shr => .ok (aluShr a b)
  | .nop | .hlt | .ret | .iret | .push | .pop | .prn | .call | .jmp | .jeq | .jne | .ldi
  | .cmp => .error .unsupportedOperation

/-! ## What the instructions share -/

/-- A two-operand ALU instruction: both operands are read, then the result goes back to `rA`, then the
engine advances (41_alu.md R116, R118). -/
def aluInstr (op : Mnemonic) (rA rB : Byte) (s : State) : Host.Outcome State Fault Refusal :=
  finish s do
    let (a, b) ← registerPair rA rB
    let v ← aluApply op (s.reg a) (s.reg b)
    return (s.setReg a v).advance op

/-- A one-operand ALU instruction (41_alu.md R116, R127). -/
def aluInstrOne (op : Mnemonic) (rA : Byte) (s : State) : Host.Outcome State Fault Refusal :=
  finish s do
    let a ← registerOperand rA
    let v ← aluApply op (s.reg a) 0
    return (s.setReg a v).advance op

/-! ## The instructions -/

/-- ADD (41_alu.md R119). -/
def execAdd (rA rB : Byte) (s : State) : Host.Outcome State Fault Refusal := aluInstr .add rA rB s

/-- SUB (41_alu.md R120). -/
def execSub (rA rB : Byte) (s : State) : Host.Outcome State Fault Refusal := aluInstr .sub rA rB s

/-- MUL (41_alu.md R121). -/
def execMul (rA rB : Byte) (s : State) : Host.Outcome State Fault Refusal := aluInstr .mul rA rB s

/-- DIV (41_alu.md R122). -/
def execDiv (rA rB : Byte) (s : State) : Host.Outcome State Fault Refusal := aluInstr .div rA rB s

/-- MOD (41_alu.md R123). -/
def execMod (rA rB : Byte) (s : State) : Host.Outcome State Fault Refusal := aluInstr .mod rA rB s

/-- AND (41_alu.md R124). -/
def execAnd (rA rB : Byte) (s : State) : Host.Outcome State Fault Refusal := aluInstr .and rA rB s

/-- OR (41_alu.md R125). -/
def execOr (rA rB : Byte) (s : State) : Host.Outcome State Fault Refusal := aluInstr .or rA rB s

/-- XOR (41_alu.md R126). -/
def execXor (rA rB : Byte) (s : State) : Host.Outcome State Fault Refusal := aluInstr .xor rA rB s

/-- NOT (41_alu.md R127). -/
def execNot (rA : Byte) (s : State) : Host.Outcome State Fault Refusal := aluInstrOne .not rA s

/-- SHL (41_alu.md R128). -/
def execShl (rA rB : Byte) (s : State) : Host.Outcome State Fault Refusal := aluInstr .shl rA rB s

/-- SHR (41_alu.md R129). -/
def execShr (rA rB : Byte) (s : State) : Host.Outcome State Fault Refusal := aluInstr .shr rA rB s

end Sys2Proof.Machine
end

