-- ==== Sys2Proof/Machine/Flags.lean ====
section
/-! DEFINITION. The flags register: its bits, the one computation that writes it, the one test that
reads it. The bit positions are general knowledge in the spec itself (10_state.md R29; PRESUMED,
unsafe only for a reader of `FL` as a number: notes/assumptions/3.md). -/

namespace Sys2Proof.Machine

/-- Equal alone, bit 0 (10_state.md R29). -/
def flagE : Byte := 0b00000001

/-- Greater alone, bit 1 (10_state.md R29). -/
def flagG : Byte := 0b00000010

/-- Less alone, bit 2 (10_state.md R29). -/
def flagL : Byte := 0b00000100

/-- What CMP writes: exactly one flag, by the unsigned order of the operands (42_compare_branch.md R140, R141). -/
def compareFlags (a b : Byte) : Byte :=
  if a.toNat = b.toNat then flagE
  else if a.toNat < b.toNat then flagL
  else flagG

/-- `FL <- v`. -/
def State.setFlags (s : State) (v : Byte) : State :=
  { s with fl := v }

/-- `FL.E`, the only bit any instruction reads (10_state.md R31). -/
def State.flagEqual (s : State) : Bool :=
  s.fl.getLsbD 0

end Sys2Proof.Machine
end

