-- ==== Sys2Proof/Machine/Branch.lean ====
section
/-! DEFINITION. Compare and branch (42_compare_branch.md). A target is a register's value, used as an
absolute address and not checked by the branch (R145). -/

namespace Sys2Proof.Machine

/-- CMP: unsigned compare, writes all of `FL` and nothing else but `pc` (42_compare_branch.md R140). -/
def execCmp (rA rB : Byte) (s : State) : Host.Outcome State Fault Refusal :=
  finish s do
    let (a, b) ← registerPair rA rB
    return (s.setFlags (compareFlags (s.reg a) (s.reg b))).advance .cmp

/-- A jump to the address in `rA` when `taken`, else the engine's advance. `rA` is checked either way
(40_engine.md R95). -/
def branchIf (m : Mnemonic) (taken : Bool) (rA : Byte) (s : State) :
    Host.Outcome State Fault Refusal :=
  finish s do
    let a ← registerOperand rA
    return if taken then s.jump (s.reg a) else s.advance m

/-- JMP (42_compare_branch.md R142). -/
def execJmp (rA : Byte) (s : State) : Host.Outcome State Fault Refusal := branchIf .jmp true rA s

/-- JEQ: taken when `FL.E` is 1 (42_compare_branch.md R143). -/
def execJeq (rA : Byte) (s : State) : Host.Outcome State Fault Refusal :=
  branchIf .jeq s.flagEqual rA s

/-- JNE: taken when `FL.E` is 0 (42_compare_branch.md R144). -/
def execJne (rA : Byte) (s : State) : Host.Outcome State Fault Refusal :=
  branchIf .jne (!s.flagEqual) rA s

end Sys2Proof.Machine
end

