-- ==== Sys2Proof/Machine/Control.lean ====
section
/-! DEFINITION. Engine control, load-immediate and output (44_control_io.md). -/

namespace Sys2Proof.Machine

/-- NOP (44_control_io.md R170). -/
def execNop (s : State) : Host.Outcome State Fault Refusal :=
  finish s (.ok (s.advance .nop))

/-- HLT: halts, and the engine still advances (44_control_io.md R171). -/
def execHlt (s : State) : Host.Outcome State Fault Refusal :=
  finish s (.ok (s.halt.advance .hlt))

/-- IRET: a halt, exactly as HLT; no stack and no flag is touched (44_control_io.md R172). -/
def execIret (s : State) : Host.Outcome State Fault Refusal :=
  finish s (.ok (s.halt.advance .iret))

/-- LDI (44_control_io.md R173). -/
def execLdi (rA imm : Byte) (s : State) : Host.Outcome State Fault Refusal :=
  finish s do
    let a ← registerOperand rA
    return (s.setReg a (literalOperand imm)).advance .ldi

/-- PRN (44_control_io.md R174). -/
def execPrn (rA : Byte) (s : State) : Host.Outcome State Fault Refusal :=
  finish s do
    let a ← registerOperand rA
    return (s.emit (s.reg a)).advance .prn

end Sys2Proof.Machine
end

