-- ==== Sys2Proof/Machine/Stack.lean ====
section
/-! DEFINITION. The stack and call unit (43_stack_call.md). Statements run in the order of the rules'
pseudocode, so a register operand that is r7 is read after SP has moved (00_scope.md R11). -/

namespace Sys2Proof.Machine

/-- PUSH: SP moves down, then `rA`, read after that, is stored at SP (43_stack_call.md R150). -/
def execPush (rA : Byte) (s : State) : Host.Outcome State Fault Refusal :=
  finish s do
    let a ← registerOperand rA
    let s ← s.openSlot
    let s ← s.memWrite s.sp.toNat (s.reg a)
    return s.advance .push

/-- POP: the byte at SP goes to `rA`, then SP, read after that, moves up (43_stack_call.md R151). -/
def execPop (rA : Byte) (s : State) : Host.Outcome State Fault Refusal :=
  finish s do
    let a ← registerOperand rA
    let v ← s.stackTop
    return (s.setReg a v).closeSlot.advance .pop

/-- CALL: the literal is pushed as the return address, then `pc` is `rA`, read after the push
(43_stack_call.md R152). -/
def execCall (rA imm : Byte) (s : State) : Host.Outcome State Fault Refusal :=
  finish s do
    let a ← registerOperand rA
    let s ← s.openSlot
    let s ← s.memWrite s.sp.toNat (literalOperand imm)
    return s.jump (s.reg a)

/-- RET: the byte at SP goes to `pc`, then SP moves up (43_stack_call.md R153). -/
def execRet (s : State) : Host.Outcome State Fault Refusal :=
  finish s do
    let v ← s.stackTop
    return (s.jump v).closeSlot

end Sys2Proof.Machine
end

