-- ==== Sys2Proof/Machine/Dispatch.lean ====
section
/-! DEFINITION. The dispatch table of 40_engine.md R96: one handler for each instruction. -/

namespace Sys2Proof.Machine

/-- The register check, the handler and the engine's advance of one instruction (40_engine.md R95 to R97). -/
def exec (i : Instr) (s : State) : Host.Outcome State Fault Refusal :=
  match i with
  | .nop => Sys2Proof.Machine.execNop s
  | .hlt => Sys2Proof.Machine.execHlt s
  | .ret => Sys2Proof.Machine.execRet s
  | .iret => Sys2Proof.Machine.execIret s
  | .push rA => Sys2Proof.Machine.execPush rA s
  | .pop rA => Sys2Proof.Machine.execPop rA s
  | .prn rA => Sys2Proof.Machine.execPrn rA s
  | .call rA imm => Sys2Proof.Machine.execCall rA imm s
  | .jmp rA => Sys2Proof.Machine.execJmp rA s
  | .jeq rA => Sys2Proof.Machine.execJeq rA s
  | .jne rA => Sys2Proof.Machine.execJne rA s
  | .ldi rA imm => Sys2Proof.Machine.execLdi rA imm s
  | .add rA rB => Sys2Proof.Machine.execAdd rA rB s
  | .sub rA rB => Sys2Proof.Machine.execSub rA rB s
  | .mul rA rB => Sys2Proof.Machine.execMul rA rB s
  | .div rA rB => Sys2Proof.Machine.execDiv rA rB s
  | .mod rA rB => Sys2Proof.Machine.execMod rA rB s
  | .cmp rA rB => Sys2Proof.Machine.execCmp rA rB s
  | .and rA rB => Sys2Proof.Machine.execAnd rA rB s
  | .or rA rB => Sys2Proof.Machine.execOr rA rB s
  | .xor rA rB => Sys2Proof.Machine.execXor rA rB s
  | .not rA => Sys2Proof.Machine.execNot rA s
  | .shl rA rB => Sys2Proof.Machine.execShl rA rB s
  | .shr rA rB => Sys2Proof.Machine.execShr rA rB s

end Sys2Proof.Machine
end

