-- ==== Sys2Proof/Machine/Step.lean ====
section
/-! DEFINITION. One step of the fetch-decode-execute cycle (40_engine.md R98). -/

namespace Sys2Proof.Machine

/-- One step. It exists only when `RUN` is `Running` (40_engine.md R90); then it fetches, decodes and runs
one instruction, or takes the first fault met (60_exceptions.md R184). -/
def step (s : State) : Host.Outcome State Fault Refusal :=
  match s.run with
  | .halted => .fault .engineHalted
  | .faulted f => .fault (.engineFaulted f)
  | .running =>
    match s.nextInstr with
    | .ok i => exec i s
    | .error f => .next (s.takeFault f)

/-- `s` with the instruction word `w`, bits above `nbits` zero, where `step` fetches next, and
`EXT_BITWISE` switched on where the instruction needs it. It stands for the load of a program from
outside the machine (notes/assumptions/6.md, notes/assumptions/7.md). -/
def State.withFetchWord (s : State) (nbits w : Nat) : State :=
  s.placeWord (w % 2 ^ nbits)

end Sys2Proof.Machine
end

