-- ==== Sys2Proof/Machine/Boot.lean ====
section
/-! DEFINITION. The host load interface (00_scope.md R12(a)): the reset state of a configuration with the
program image in memory (70_reset_and_hazards.md R200, R203, R204). -/

namespace Sys2Proof.Machine

/-- The state a run starts from. The image is the loader's list of values, written from address 0
(70_reset_and_hazards.md R203). A configuration the spec does not admit, an image longer than memory
and a value above 255 are refused, never truncated or wrapped (R204; notes/assumptions/8.md). -/
def boot (c : Config) (image : List Nat) : Host.Outcome State Fault Refusal :=
  if !c.wf then .refused .illegalConfiguration
  else if c.memSize < image.length then .refused (.imageTooLong image.length)
  else if image.any fun v => decide (255 < v) then .refused .imageValueOutOfRange
  else .next { State.resetWith c with mem := Memory.load [] 0 (image.map (BitVec.ofNat 8)) }

end Sys2Proof.Machine
end

