-- ==== Sys2Proof/Safety.lean ====
section
/-! DEFINITION. The terms in which claims are stated: the invariant of a run, reachability, and the spec's
own list of fault checks in order of priority. Nothing the machine runs depends on this file. -/

namespace Sys2Proof.Machine

/-- What holds of every state of a run: the configuration is one the spec admits (00_scope.md R7), memory is
in canonical form inside the `MEM_SIZE` cells there are (20_memory.md R50), `pc` keeps its bound
(10_state.md R28), and `FL` is 0 or exactly one flag (10_state.md R29, R30). -/
structure State.Inv (s : State) : Prop where
  configLegal : s.cfg.wf = true
  memoryCanonical : s.mem.wf = true
  memoryInside : s.mem.below s.cfg.memSize = true
  pcBounded : s.pc ≤ max s.cfg.memSize 255
  flagsOneHot : s.fl = 0 ∨ s.fl = flagE ∨ s.fl = flagG ∨ s.fl = flagL

/-- `t` is reached from `s` by steps that answer a next state (40_engine.md R100). -/
inductive Reaches : State → State → Prop where
  | start (s : State) : Reaches s s
  | next {s t u : State} (before : Reaches s t) (stepped : step t = .next u) : Reaches s u

/-- The eleven operations of the ALU (41_alu.md R110). -/
def aluMnemonics : List Mnemonic :=
  [.add, .sub, .mul, .div, .mod, .and, .or, .xor, .not, .shl, .shr]

/-- The first address of `pc`, `pc+1`, `pc+2` that is not in memory (40_engine.md R91). -/
def fetchFault (s : State) : Option FaultCause :=
  [s.pc, s.pc + 1, s.pc + 2].find? (fun a => decide (s.cfg.memSize ≤ a))
    |>.map (.outOfRangeAccess .memory)

/-- The first register operand outside 0..7 (40_engine.md R95). -/
def registerFault (i : Instr) : Option FaultCause :=
  i.registerOperands.find? (fun r => decide (8 ≤ r.toNat))
    |>.map fun r => .outOfRangeAccess .register r.toNat

/-- The checks of the handlers, in the order of their pseudocode (60_exceptions.md R184, point 4). -/
def handlerFault (i : Instr) (s : State) : Option FaultCause :=
  match i with
  | .push _ | .call _ _ =>
    if s.sp.toNat = 0 then some .stackOverflow
    else if s.cfg.memSize ≤ s.sp.toNat - 1 then some (.outOfRangeAccess .memory (s.sp.toNat - 1))
    else none
  | .pop _ | .ret =>
    if s.cfg.spInit.toNat ≤ s.sp.toNat then some .stackUnderflow else none
  | .div _ rB | .mod _ rB =>
    if s.x[rB.toNat]? = some 0 then some .divideByZero else none
  | .nop | .hlt | .iret | .prn _ | .jmp _ | .jeq _ | .jne _ | .ldi _ _ => none
  | .add _ _ | .sub _ _ | .mul _ _ | .cmp _ _ | .and _ _ | .or _ _ | .xor _ _ | .not _
  | .shl _ _ | .shr _ _ => none

/-- The fault a step in `s` reports, if any: the first met in the order of 60_exceptions.md R184. -/
def firstFault (s : State) : Option FaultCause :=
  match fetchFault s with
  | some f => some f
  | none =>
    match s.cfg.lookup (s.mem.read s.pc) with
    | none => some (.unknownOpcode (s.mem.read s.pc))
    | some m =>
      let i := m.toInstr (s.mem.read (s.pc + 1)) (s.mem.read (s.pc + 2))
      match registerFault i with
      | some f => some f
      | none => handlerFault i s

end Sys2Proof.Machine
end

