-- ==== Sys2Proof/Certificates/Slice0/Obligations.lean ====
section
/-! DEFINITION. The statements for the provers, from the numbered rules of spec/. A statement written as an
equation `exec i s = .next { s with … }` gives the result AND the frame: every field it does not
name, each register and each byte of memory among them, is as before. `registerByte r` is the
operand byte r, so `∀ r : Fin 8` runs over every valid register operand; what the invalid ones
(8..255) do is RegisterOperandsAreCheckedFirst. -/

open Sys2Proof Sys2Proof.Machine

/-! ## Encoding -/

/-- 30_encoding.md sections 1 to 3: in every configuration the spec admits, whatever bytes follow it, an
enabled instruction's encoding decodes to it, with every operand byte at every value (not only 0..7). -/
def Obligations.DecodeOfEncode : Prop :=
  ∀ (c : Config) (i : Instr) (pad : List Byte) (op a b : Byte) (rest : List Byte),
    c.wf = true → c.enabled i.mnemonic = true → encode c i ++ pad = op :: a :: b :: rest →
      decode c op a b = .ok i

/-- 30_encoding.md sections 1 to 3, the other direction: bytes that decode are the encoding of what they
decode to, followed by bytes its format does not use; and what they decode to is enabled. -/
def Obligations.EncodeOfDecode : Prop :=
  ∀ (c : Config) (op a b : Byte) (i : Instr),
    decode c op a b = .ok i → c.enabled i.mnemonic = true ∧ ∃ pad, encode c i ++ pad = [op, a, b]

/-- 30_encoding.md R78: DECODE answers the enabled mnemonic whose `OPMAP` value is the byte, and none
otherwise, in every admitted configuration; the enabled mnemonics are the 18 without a star, plus the
six starred ones when `EXT_BITWISE` is true. -/
def Obligations.DecodeIsTableLookup : Prop :=
  ∀ c : Config, c.wf = true →
    (∀ op m, c.lookup op = some m ↔ (c.enabled m = true ∧ c.opMap.code m = op)) ∧
    (∀ op, c.lookup op = none ↔ ∀ m, ¬(c.enabled m = true ∧ c.opMap.code m = op)) ∧
    (∀ m, c.enabled m = true ↔
      (m ∈ [Mnemonic.nop, .hlt, .ret, .iret, .push, .pop, .prn, .call, .jmp, .jeq, .jne, .ldi,
            .add, .sub, .mul, .div, .mod, .cmp] ∨
        (m ∈ [Mnemonic.and, .or, .xor, .not, .shl, .shr] ∧ c.extBitwise = true)))

/-- 00_scope.md R8: with `EXT_BITWISE` false no byte decodes to AND, OR, XOR, NOT, SHL or SHR, and in a
running engine the opcode byte of one of them, unless another instruction has that byte, faults as
an unknown opcode; with `EXT_BITWISE` true each of them decodes from its byte. -/
def Obligations.BitwiseGroupNeedsTheOption : Prop :=
  ∀ c : Config,
    (c.extBitwise = false →
      ∀ m ∈ [Mnemonic.and, .or, .xor, .not, .shl, .shr],
        (∀ op, c.lookup op ≠ some m) ∧
        (∀ s : State, s.cfg = c → s.run = .running → s.pc + 2 < c.memSize →
          s.mem.read s.pc = c.opMap.code m →
          (∀ n, c.enabled n = true → c.opMap.code n ≠ c.opMap.code m) →
            step s = .next { s with run := .faulted (.unknownOpcode (c.opMap.code m)) })) ∧
    (c.extBitwise = true → c.wf = true → ∀ a b : Byte,
      decode c c.opMap.and a b = .ok (.and a b) ∧ decode c c.opMap.or a b = .ok (.or a b) ∧
      decode c c.opMap.xor a b = .ok (.xor a b) ∧ decode c c.opMap.not a b = .ok (.not a) ∧
      decode c c.opMap.shl a b = .ok (.shl a b) ∧ decode c c.opMap.shr a b = .ok (.shr a b))

/-- 30_encoding.md section 4: the legal opcode bytes of the default map, 18 without and 24 with
`EXT_BITWISE`. The byte values are the spec's own default (general knowledge, notes/assumptions/2.md). -/
def Obligations.DefaultLegalOpcodes : Prop :=
  ∀ op : Byte,
    ((Config.default.lookup op).isSome = true ↔
      op ∈ [0x00#8, 0x01, 0x11, 0x13, 0x45, 0x46, 0x47, 0x50, 0x54, 0x55, 0x56, 0x82, 0xA0,
            0xA1, 0xA2, 0xA3, 0xA4, 0xA7]) ∧
    ((Config.allRows.lookup op).isSome = true ↔
      op ∈ [0x00#8, 0x01, 0x11, 0x13, 0x45, 0x46, 0x47, 0x50, 0x54, 0x55, 0x56, 0x82, 0xA0,
            0xA1, 0xA2, 0xA3, 0xA4, 0xA7, 0x69, 0xA8, 0xAA, 0xAB, 0xAC, 0xAD])

/-- 30_encoding.md sections 1 and 3: words written out from the default map. Three opcodes are the
source's (82, 47, 01); the others are the spec's own default (notes/assumptions/2.md). -/
def Obligations.DefaultWordsDecode : Prop :=
  decode Config.default 0x82 0x00 0x09 = .ok (.ldi 0 9) ∧
  decode Config.default 0x47 0x00 0x01 = .ok (.prn 0) ∧
  decode Config.default 0x01 0xFF 0xFF = .ok .hlt ∧
  decode Config.default 0xA1 0x07 0x01 = .ok (.sub 7 1) ∧
  decode Config.default 0xA7 0x03 0x05 = .ok (.cmp 3 5) ∧
  decode Config.default 0x50 0x01 0x09 = .ok (.call 1 9) ∧
  decode Config.default 0x55 0x03 0xFF = .ok (.jeq 3) ∧
  decode Config.allRows 0xAC 0x00 0x01 = .ok (.shl 0 1) ∧
  decode Config.default 0xAC 0x00 0x01 = .error (.unknownOpcode 0xAC)

/-- 30_encoding.md sections 1 and 2: a format's unused operand bytes are ignored; a decoded instruction of
arity 0 is the same for every A and B, one of arity 1 for every B. -/
def Obligations.UnusedOperandBytesAreIgnored : Prop :=
  ∀ (c : Config) (op a b : Byte) (i : Instr), decode c op a b = .ok i →
    (i.mnemonic.arity = 0 → ∀ a' b', decode c op a' b' = .ok i) ∧
    (i.mnemonic.arity = 1 → ∀ b', decode c op a b' = .ok i)

/-- 30_encoding.md sections 1 and 3: the formats and arities of the table; the length of an instruction is
1 + arity, whatever the opcode byte's bits are. -/
def Obligations.LengthIsOnePlusArity : Prop :=
  (∀ (c : Config) (i : Instr), (encode c i).length = 1 + i.mnemonic.arity) ∧
  (∀ m : Mnemonic,
    (m.arity = 0 ↔ m ∈ [Mnemonic.nop, .hlt, .ret, .iret]) ∧
    (m.arity = 1 ↔ m ∈ [Mnemonic.push, .pop, .prn, .jmp, .jeq, .jne, .not]) ∧
    (m.arity = 2 ↔ m ∈ [Mnemonic.ldi, .call, .add, .sub, .mul, .div, .mod, .cmp,
                        .and, .or, .xor, .shl, .shr]))

/-! ## Engine -/

/-- 40_engine.md R91: the first of pc, pc+1, pc+2 outside memory faults, before decode, for every opcode;
with `MEM_SIZE` = 256 nothing executes at pc = 254 or 255. -/
def Obligations.FetchFaultsOnFirstBadAddress : Prop :=
  ∀ s : State, s.run = .running →
    (s.cfg.memSize ≤ s.pc →
      step s = .next { s with run := .faulted (.outOfRangeAccess .memory s.pc) }) ∧
    (s.pc < s.cfg.memSize → s.cfg.memSize ≤ s.pc + 1 →
      step s = .next { s with run := .faulted (.outOfRangeAccess .memory (s.pc + 1)) }) ∧
    (s.pc + 1 < s.cfg.memSize → s.cfg.memSize ≤ s.pc + 2 →
      step s = .next { s with run := .faulted (.outOfRangeAccess .memory (s.pc + 2)) }) ∧
    (s.cfg.memSize = 256 → (s.pc = 254 ∨ s.pc = 255) →
      step s = .next { s with run := .faulted (.outOfRangeAccess .memory 256) })

/-- 40_engine.md R94: an opcode byte with no handler faults with that byte; no register, no memory cell,
neither `FL` nor `pc` changes. -/
def Obligations.UnknownOpcodeFaults : Prop :=
  ∀ s : State, s.run = .running → s.pc + 2 < s.cfg.memSize →
    s.cfg.lookup (s.mem.read s.pc) = none →
      step s = .next { s with run := .faulted (.unknownOpcode (s.mem.read s.pc)) }

/-- 40_engine.md R95 (the spec's decision D13): every operand byte the format marks as a register index is
checked before the handler, A then B, whether or not the handler would read it; literal and unused
bytes are never checked, so an instruction whose register operands are valid reports no register fault. -/
def Obligations.RegisterOperandsAreCheckedFirst : Prop :=
  (∀ (s : State) (rA : Byte), 8 ≤ rA.toNat →
    ∀ i ∈ [Instr.push rA, .pop rA, .prn rA, .jmp rA, .jeq rA, .jne rA, .not rA],
      exec i s = .next { s with run := .faulted (.outOfRangeAccess .register rA.toNat) }) ∧
  (∀ (s : State) (rA imm : Byte), 8 ≤ rA.toNat →
    ∀ i ∈ [Instr.ldi rA imm, .call rA imm],
      exec i s = .next { s with run := .faulted (.outOfRangeAccess .register rA.toNat) }) ∧
  (∀ (s : State) (rA rB : Byte), 8 ≤ rA.toNat →
    ∀ i ∈ [Instr.add rA rB, .sub rA rB, .mul rA rB, .div rA rB, .mod rA rB, .cmp rA rB,
           .and rA rB, .or rA rB, .xor rA rB, .shl rA rB, .shr rA rB],
      exec i s = .next { s with run := .faulted (.outOfRangeAccess .register rA.toNat) }) ∧
  (∀ (s : State) (rA rB : Byte), rA.toNat < 8 → 8 ≤ rB.toNat →
    ∀ i ∈ [Instr.add rA rB, .sub rA rB, .mul rA rB, .div rA rB, .mod rA rB, .cmp rA rB,
           .and rA rB, .or rA rB, .xor rA rB, .shl rA rB, .shr rA rB],
      exec i s = .next { s with run := .faulted (.outOfRangeAccess .register rB.toNat) }) ∧
  (∀ (s t : State) (i : Instr) (n : Nat), (∀ r ∈ i.registerOperands, r.toNat < 8) →
    s.run = .running → exec i s = .next t → t.run ≠ .faulted (.outOfRangeAccess .register n))

/-- 40_engine.md sections 1 to 4: in a running engine whose three fetch bytes are in memory and decode, the
step is `exec` of the decoded instruction at that state; fetch itself writes no state. -/
def Obligations.StepRunsTheDecodedInstruction : Prop :=
  ∀ (s : State) (i : Instr), s.run = .running → s.pc + 2 < s.cfg.memSize →
    decode s.cfg (s.mem.read s.pc) (s.mem.read (s.pc + 1)) (s.mem.read (s.pc + 2)) = .ok i →
      step s = exec i s

/-- 40_engine.md R90: a step exists exactly when `RUN` is `Running`: every running state has a next state,
whatever its configuration and memory (no instruction is refused); `Halted` and `Faulted` have none. -/
def Obligations.StepExistsExactlyWhenRunning : Prop :=
  ∀ s : State, (∃ t, step s = .next t) ↔ s.run = .running

/-- 40_engine.md R97: where the handler sets `pc` (JMP, CALL, RET, a taken JEQ or JNE) the engine leaves it as
set; every other instruction that does not fault, HLT and IRET among them, leaves pc + 1 + arity. Taken
is read through `flagEqual`, the model's `FL.E`. -/
def Obligations.EngineAdvancesUnlessHandlerSetPc : Prop :=
  ∀ (s t : State) (i : Instr), s.run = .running → exec i s = .next t → (∀ f, t.run ≠ .faulted f) →
    (∀ rA, (i = .jmp rA ∨ (i = .jeq rA ∧ s.flagEqual = true) ∨ (i = .jne rA ∧ s.flagEqual = false)) →
      s.x[rA.toNat]?.map (·.toNat) = some t.pc) ∧
    (∀ rA imm, i = .call rA imm → t.x[rA.toNat]?.map (·.toNat) = some t.pc) ∧
    (i = .ret → t.pc = (s.mem.read s.sp.toNat).toNat) ∧
    (i.mnemonic ∉ [Mnemonic.jmp, .call, .ret] →
      ¬(i.mnemonic = .jeq ∧ s.flagEqual = true) → ¬(i.mnemonic = .jne ∧ s.flagEqual = false) →
        t.pc = s.pc + 1 + i.mnemonic.arity)

/-- 40_engine.md R99 (the spec's decision D12): a step that ends faulted changed nothing but `RUN`;
registers, memory, `FL`, `OUT` and `pc` keep their values. -/
def Obligations.FaultDiscardsTheStep : Prop :=
  ∀ (s t : State) (f : FaultCause), step s = .next t → t.run = .faulted f →
    t = { s with run := .faulted f }

/-- 60_exceptions.md R184 (the spec's decision D14): a step reports the first fault met in the order fetch,
decode, register check, handler; where none of those checks fails, the step ends running or halted. -/
def Obligations.FirstFaultByPriority : Prop :=
  ∀ s : State, s.cfg.wf = true → s.run = .running →
    (∀ f, firstFault s = some f → step s = .next { s with run := .faulted f }) ∧
    (firstFault s = none → ∃ t, step s = .next t ∧ (t.run = .running ∨ t.run = .halted))

/-- 41_alu.md section 1 and 60_exceptions.md section 1: the ALU answers `UnsupportedOperation` exactly for
an op tag that is none of its eleven, and no step raises it. That the op tags are the mnemonics is the
model's own choice (DESIGN CHOICE: notes/assumptions/10.md). -/
def Obligations.UnsupportedOperationIsNeverRaised : Prop :=
  (∀ (m : Mnemonic) (a b : Byte), aluApply m a b = .error .unsupportedOperation ↔ m ∉ aluMnemonics) ∧
  (∀ s t : State, step s = .next t → t.run ≠ .faulted .unsupportedOperation)

/-- 60_exceptions.md section 6: a step that halts the engine ran HLT or IRET, and nothing wakes a halted
engine: no state but itself is reached from it. -/
def Obligations.OnlyHltAndIretHalt : Prop :=
  (∀ s t : State, step s = .next t → t.run = .halted →
    s.nextInstr = .ok .hlt ∨ s.nextInstr = .ok .iret) ∧
  (∀ s : State, s.run = .halted → ∀ t, Reaches s t → t = s)

/-- 10_state.md R32: the engine starts `Running` with pc 0, steps only while `Running`, and once `Halted` or
`Faulted` its state, the recorded fault among it, never changes again. -/
def Obligations.TerminalStatesNeverChange : Prop :=
  (∀ c : Config, (State.resetWith c).run = .running ∧ (State.resetWith c).pc = 0) ∧
  (∀ s t : State, step s = .next t → s.run = .running) ∧
  (∀ s : State, s.run ≠ .running → ∀ t, Reaches s t → t = s)

/-- 60_exceptions.md section 1: the numeric codes of the faults, the spec's own numbering (its decision
D10), and that they tell the six faults apart. -/
def Obligations.FaultCodes : Prop :=
  FaultCause.unsupportedOperation.code = 1 ∧ FaultCause.divideByZero.code = 2 ∧
  FaultCause.stackUnderflow.code = 3 ∧ FaultCause.stackOverflow.code = 4 ∧
  (∀ k n, (FaultCause.outOfRangeAccess k n).code = 5) ∧ (∀ op, (FaultCause.unknownOpcode op).code = 6)

/-! ## State, memory, reset -/

/-- 10_state.md R26: every register holds a defined value from reset, 0 but for r7 = `SP_INIT`; and the
machine's own reset state (the default configuration, no image) field by field. -/
def Obligations.ResetState : Prop :=
  (∀ c : Config, ∀ r : Fin 8, (State.resetWith c).x[r] = if r = 7 then c.spInit else 0) ∧
  State.reset.cfg = Config.default ∧ State.reset.x[7] = 0xF4 ∧ State.reset.pc = 0 ∧
  State.reset.fl = 0 ∧ State.reset.run = .running ∧ State.reset.out = [] ∧
  (∀ a, State.reset.mem.read a = 0)

/-- 10_state.md R34: the reset value of every piece of state, for every admitted configuration and image:
the image in memory from address 0, every other cell 0, r7 = `SP_INIT`, the rest 0, running, nothing emitted. -/
def Obligations.BootLoadsTheImage : Prop :=
  ∀ (c : Config) (image : List Nat), c.wf = true → image.length ≤ c.memSize →
    (∀ v ∈ image, v ≤ 255) →
      ∃ s, boot c image = .next s ∧
        (∀ i, (h : i < image.length) → (s.mem.read i).toNat = image[i]) ∧
        (∀ i, image.length ≤ i → s.mem.read i = 0) ∧
        s.x = #v[0, 0, 0, 0, 0, 0, 0, c.spInit] ∧ s.pc = 0 ∧ s.fl = 0 ∧ s.run = .running ∧
        s.out = [] ∧ s.cfg = c

/-- 70_reset_and_hazards.md R204 (the spec's decision D27): an image longer than memory, or with a value
above 255, is refused, not truncated or wrapped. -/
def Obligations.BootRefusesBadImages : Prop :=
  ∀ (c : Config) (image : List Nat), c.memSize < image.length ∨ (∃ v ∈ image, 255 < v) →
    ∃ r, boot c image = .refused r

/-- 10_state.md R22: a register write stores the value masked to 8 bits, in that register alone, and every
register's value is in 0..255. -/
def Obligations.RegisterWriteIsMasked : Prop :=
  ∀ (s : State) (r : Fin 8) (v : Nat),
    ((s.setReg r (mask8 v)).x[r]).toNat = v % 256 ∧
    (∀ q : Fin 8, q ≠ r → (s.setReg r (mask8 v)).x[q] = s.x[q]) ∧
    (∀ q : Fin 8, s.x[q].toNat ≤ 255)

/-- 20_memory.md R54: `MemRead` answers the cell; `MemWrite` sets that cell and leaves every other one, and
keeps everything that is not memory; a cell always holds 0..255. -/
def Obligations.MemWriteSetsOneCell : Prop :=
  ∀ (s t : State) (a : Nat) (v : Byte),
    (a < s.cfg.memSize → s.memRead a = .ok (s.mem.read a)) ∧
    (s.mem.wf = true → s.memWrite a v = .ok t →
      (∀ b, t.mem.read b = if b = a then v else s.mem.read b) ∧ t = { s with mem := t.mem }) ∧
    (∀ b, (s.mem.read b).toNat ≤ 255)

/-- 20_memory.md section 1: an access outside 0..MEM_SIZE-1 faults with that address and is never reduced
modulo `MEM_SIZE`; one inside always succeeds. -/
def Obligations.OutOfRangeAccessFaults : Prop :=
  ∀ (s : State) (a : Nat) (v : Byte),
    (s.cfg.memSize ≤ a →
      s.memRead a = .error (.outOfRangeAccess .memory a) ∧
      s.memWrite a v = .error (.outOfRangeAccess .memory a)) ∧
    (a < s.cfg.memSize → (∃ w, s.memRead a = .ok w) ∧ ∃ t, s.memWrite a v = .ok t)

/-- 20_memory.md section 4: a byte a store wrote is seen by the fetch of every later step, here by the fetch
at any pc after it; the other fetched bytes are the old ones. -/
def Obligations.FetchSeesTheLatestWrite : Prop :=
  ∀ (s t : State) (a p : Nat) (v : Byte), s.mem.wf = true → s.memWrite a v = .ok t →
    p + 2 < s.cfg.memSize →
      State.fetch { t with pc := p } = .ok
        { op := if p = a then v else s.mem.read p
          a := if p + 1 = a then v else s.mem.read (p + 1)
          b := if p + 2 = a then v else s.mem.read (p + 2) }

/-! ## ALU -/

/-- 41_alu.md R111: ADD, SUB and MUL are arithmetic modulo 256, written to rA, with no overflow or carry
reported anywhere (nothing but that register and `pc` changes). -/
def Obligations.AddSubMulWrapModulo256 : Prop :=
  ∀ (s : State) (a b : Fin 8),
    exec (.add (registerByte a) (registerByte b)) s =
      .next { s with
        x := s.x.set a (BitVec.ofNat 8 ((s.x[a].toNat + s.x[b].toNat) % 256)), pc := s.pc + 3 } ∧
    exec (.sub (registerByte a) (registerByte b)) s =
      .next { s with
        x := s.x.set a (BitVec.ofNat 8
          (if s.x[a].toNat < s.x[b].toNat then 256 + s.x[a].toNat - s.x[b].toNat
            else s.x[a].toNat - s.x[b].toNat)), pc := s.pc + 3 } ∧
    exec (.mul (registerByte a) (registerByte b)) s =
      .next { s with
        x := s.x.set a (BitVec.ofNat 8 ((s.x[a].toNat * s.x[b].toNat) % 256)), pc := s.pc + 3 }

/-- 41_alu.md R112: DIV and MOD are unsigned truncating division, result to rA; a zero divisor faults
`DivideByZero` and writes nothing. -/
def Obligations.DivModTruncateOrFault : Prop :=
  ∀ (s : State) (a b : Fin 8),
    (s.x[b] ≠ 0 →
      exec (.div (registerByte a) (registerByte b)) s =
        .next { s with
          x := s.x.set a (BitVec.ofNat 8 (s.x[a].toNat / s.x[b].toNat)), pc := s.pc + 3 } ∧
      exec (.mod (registerByte a) (registerByte b)) s =
        .next { s with
          x := s.x.set a (BitVec.ofNat 8 (s.x[a].toNat % s.x[b].toNat)), pc := s.pc + 3 }) ∧
    (s.x[b] = 0 →
      exec (.div (registerByte a) (registerByte b)) s = .next { s with run := .faulted .divideByZero } ∧
      exec (.mod (registerByte a) (registerByte b)) s = .next { s with run := .faulted .divideByZero })

/-- 41_alu.md R113: AND, OR, XOR and NOT act on all 8 bits, result to rA (NOT is 255 - a, and has length 2). -/
def Obligations.BitwiseActsOnEveryBit : Prop :=
  ∀ (s : State) (a b : Fin 8),
    exec (.and (registerByte a) (registerByte b)) s =
      .next { s with x := s.x.set a (s.x[a] &&& s.x[b]), pc := s.pc + 3 } ∧
    exec (.or (registerByte a) (registerByte b)) s =
      .next { s with x := s.x.set a (s.x[a] ||| s.x[b]), pc := s.pc + 3 } ∧
    exec (.xor (registerByte a) (registerByte b)) s =
      .next { s with x := s.x.set a (s.x[a] ^^^ s.x[b]), pc := s.pc + 3 } ∧
    exec (.not (registerByte a)) s =
      .next { s with x := s.x.set a (~~~ s.x[a]), pc := s.pc + 2 } ∧
    (~~~ s.x[a]).toNat = 255 - s.x[a].toNat

/-- 41_alu.md R114: SHL and SHR are logical, by the amount modulo 8, result to rA; by 8 they leave rA
unchanged and by 9 they act as by 1. -/
def Obligations.ShiftsTakeAmountModulo8 : Prop :=
  (∀ (s : State) (a b : Fin 8),
    exec (.shl (registerByte a) (registerByte b)) s =
      .next { s with
        x := s.x.set a (BitVec.ofNat 8 ((s.x[a].toNat * 2 ^ (s.x[b].toNat % 8)) % 256)), pc := s.pc + 3 } ∧
    exec (.shr (registerByte a) (registerByte b)) s =
      .next { s with
        x := s.x.set a (BitVec.ofNat 8 (s.x[a].toNat / 2 ^ (s.x[b].toNat % 8))), pc := s.pc + 3 }) ∧
  (∀ v : Byte, aluShl v 8 = v ∧ aluShr v 8 = v ∧ aluShl v 9 = aluShl v 1 ∧ aluShr v 9 = aluShr v 1)

/-- 41_alu.md R116 (the spec's decision D3): every one of the eleven ALU instructions writes its result back
to rA and changes nothing else but `pc`; when the ALU faults nothing is written. NOT takes no rB. -/
def Obligations.AluResultGoesToFirstOperand : Prop :=
  ∀ (s : State) (m : Mnemonic) (a b : Fin 8), m ∈ aluMnemonics →
    (∀ v, aluApply m s.x[a] s.x[b] = .ok v →
      exec (m.toInstr (registerByte a) (registerByte b)) s =
        .next { s with x := s.x.set a v, pc := s.pc + 1 + m.arity }) ∧
    (∀ f, aluApply m s.x[a] s.x[b] = .error f →
      exec (m.toInstr (registerByte a) (registerByte b)) s = .next { s with run := .faulted f })

/-- 41_alu.md section 1: with one register as both operands, ADD doubles it, SUB and XOR give 0, and DIV
gives 1 where it is not 0; with rA = 7 the result is the new stack pointer. -/
def Obligations.OperandsAreReadBeforeTheWrite : Prop :=
  ∀ (s : State) (r b : Fin 8),
    (∃ t, exec (.add (registerByte r) (registerByte r)) s = .next t ∧
      t.x[r].toNat = 2 * s.x[r].toNat % 256) ∧
    (∃ t, exec (.sub (registerByte r) (registerByte r)) s = .next t ∧ t.x[r] = 0) ∧
    (∃ t, exec (.xor (registerByte r) (registerByte r)) s = .next t ∧ t.x[r] = 0) ∧
    (s.x[r] ≠ 0 → ∃ t, exec (.div (registerByte r) (registerByte r)) s = .next t ∧ t.x[r] = 1) ∧
    (∃ t, exec (.sub 7 (registerByte b)) s = .next t ∧ t.sp = s.sp - s.x[b])

/-! ## Compare and branch -/

/-- 42_compare_branch.md section 1: CMP writes exactly one of E, L, G by the unsigned order of its operands,
and nothing else but `pc`. The bit positions are the spec's own choice (notes/assumptions/3.md). -/
def Obligations.CmpWritesTheUnsignedOrder : Prop :=
  ∀ (s : State) (a b : Fin 8),
    exec (.cmp (registerByte a) (registerByte b)) s =
      .next { s with
        fl := if s.x[a].toNat = s.x[b].toNat then 0b00000001
              else if s.x[a].toNat < s.x[b].toNat then 0b00000100
              else 0b00000010
        pc := s.pc + 3 }

/-- 10_state.md R30: only CMP writes `FL`; after CMP exactly one of L, G, E is 1; every other step, an ALU
instruction's among them, keeps `FL`. -/
def Obligations.OnlyCmpWritesFlags : Prop :=
  (∀ s t : State, step s = .next t → (¬ ∃ a b, s.nextInstr = .ok (.cmp a b)) → t.fl = s.fl) ∧
  (∀ (s t : State) (a b : Byte), s.nextInstr = .ok (.cmp a b) → step s = .next t → t.run = .running →
    t.fl = flagE ∨ t.fl = flagG ∨ t.fl = flagL)

/-- 42_compare_branch.md section 2: JMP goes to the address in rA; JEQ does so exactly when E is set and JNE
exactly when E is clear, and otherwise each falls through to pc + 2; the target is not checked. That E is bit 0
of `FL` is no rule of the source but general knowledge (PRESUMED: notes/assumptions/3.md). -/
def Obligations.JumpsGoThroughRegisters : Prop :=
  ∀ (s : State) (a : Fin 8),
    exec (.jmp (registerByte a)) s = .next { s with pc := s.x[a].toNat } ∧
    exec (.jeq (registerByte a)) s =
      .next { s with pc := if s.fl.getLsbD 0 then s.x[a].toNat else s.pc + 2 } ∧
    exec (.jne (registerByte a)) s =
      .next { s with pc := if s.fl.getLsbD 0 then s.pc + 2 else s.x[a].toNat }

/-- 10_state.md section 4: only JEQ and JNE read `FL`, and only its E bit. An instruction other than CMP does
the same whatever `FL` holds (JEQ and JNE: whatever its other bits hold) and carries `FL` along; CMP
overwrites it whole; and at reset JEQ falls through and JNE is taken. That E is bit 0 of `FL` is no rule of
the source but general knowledge (PRESUMED: notes/assumptions/3.md). -/
def Obligations.OnlyTheEqualBitIsRead : Prop :=
  (∀ (s t : State) (i : Instr) (v : Byte), i.mnemonic ≠ .cmp →
    (i.mnemonic ∈ [Mnemonic.jeq, .jne] → v.getLsbD 0 = s.fl.getLsbD 0) → exec i s = .next t →
      exec i { s with fl := v } = .next { t with fl := v }) ∧
  (∀ (s : State) (a b : Fin 8) (v : Byte),
    exec (.cmp (registerByte a) (registerByte b)) { s with fl := v } =
      exec (.cmp (registerByte a) (registerByte b)) s) ∧
  (∀ a : Fin 8,
    exec (.jeq (registerByte a)) State.reset = .next { State.reset with pc := 2 } ∧
    exec (.jne (registerByte a)) State.reset = .next { State.reset with pc := State.reset.x[a].toNat })

/-! ## Stack and call -/

/-- 43_stack_call.md section 2: PUSH moves SP down and stores rA, read after that, at the new SP; SP = 0
faults `StackOverflow`, and a new SP outside memory faults `OutOfRangeAccess` (the spec's D5, D20). -/
def Obligations.PushStoresBelowTheStack : Prop :=
  ∀ (s : State) (a : Fin 8),
    (s.x[7].toNat = 0 →
      exec (.push (registerByte a)) s = .next { s with run := .faulted .stackOverflow }) ∧
    (s.x[7].toNat ≠ 0 → s.cfg.memSize ≤ s.x[7].toNat - 1 →
      exec (.push (registerByte a)) s =
        .next { s with run := .faulted (.outOfRangeAccess .memory (s.x[7].toNat - 1)) }) ∧
    (s.x[7].toNat ≠ 0 → s.x[7].toNat - 1 < s.cfg.memSize →
      exec (.push (registerByte a)) s =
        .next { s with
          x := s.x.set 7 (BitVec.ofNat 8 (s.x[7].toNat - 1))
          mem := s.mem.write (s.x[7].toNat - 1)
            (if a = 7 then BitVec.ofNat 8 (s.x[7].toNat - 1) else s.x[a])
          pc := s.pc + 2 })

/-- 43_stack_call.md section 2: POP loads the byte at SP into rA and then moves SP up, so `POP r7` leaves the
byte plus 1, modulo 256; SP at or above `SP_INIT` faults `StackUnderflow` (the spec's D20). -/
def Obligations.PopLoadsTheTop : Prop :=
  ∀ (s : State) (a : Fin 8), s.cfg.wf = true →
    (s.cfg.spInit.toNat ≤ s.x[7].toNat →
      exec (.pop (registerByte a)) s = .next { s with run := .faulted .stackUnderflow }) ∧
    (s.x[7].toNat < s.cfg.spInit.toNat → a ≠ 7 →
      exec (.pop (registerByte a)) s =
        .next { s with
          x := (s.x.set a (s.mem.read s.x[7].toNat)).set 7 (BitVec.ofNat 8 (s.x[7].toNat + 1))
          pc := s.pc + 2 }) ∧
    (s.x[7].toNat < s.cfg.spInit.toNat → a = 7 →
      exec (.pop (registerByte a)) s =
        .next { s with
          x := s.x.set 7 (BitVec.ofNat 8 ((s.mem.read s.x[7].toNat).toNat + 1))
          pc := s.pc + 2 })

/-- 43_stack_call.md section 2: CALL pushes its literal operand and jumps to rA, read after the push, so that
`CALL r7` jumps to the new SP; its faults are those of a push (the spec's D21). -/
def Obligations.CallPushesItsLiteral : Prop :=
  ∀ (s : State) (a : Fin 8) (imm : Byte),
    (s.x[7].toNat = 0 →
      exec (.call (registerByte a) imm) s = .next { s with run := .faulted .stackOverflow }) ∧
    (s.x[7].toNat ≠ 0 → s.cfg.memSize ≤ s.x[7].toNat - 1 →
      exec (.call (registerByte a) imm) s =
        .next { s with run := .faulted (.outOfRangeAccess .memory (s.x[7].toNat - 1)) }) ∧
    (s.x[7].toNat ≠ 0 → s.x[7].toNat - 1 < s.cfg.memSize →
      exec (.call (registerByte a) imm) s =
        .next { s with
          x := s.x.set 7 (BitVec.ofNat 8 (s.x[7].toNat - 1))
          mem := s.mem.write (s.x[7].toNat - 1) imm
          pc := if a = 7 then s.x[7].toNat - 1 else s.x[a].toNat })

/-- 43_stack_call.md section 2: RET pops the byte at SP into `pc` and writes no register but SP; SP at or
above `SP_INIT` faults `StackUnderflow`. -/
def Obligations.RetPopsIntoPc : Prop :=
  ∀ s : State, s.cfg.wf = true →
    (s.cfg.spInit.toNat ≤ s.x[7].toNat →
      exec .ret s = .next { s with run := .faulted .stackUnderflow }) ∧
    (s.x[7].toNat < s.cfg.spInit.toNat →
      exec .ret s =
        .next { s with
          x := s.x.set 7 (BitVec.ofNat 8 (s.x[7].toNat + 1))
          pc := (s.mem.read s.x[7].toNat).toNat })

/-- 43_stack_call.md section 3: with 1 <= SP <= `SP_INIT`, PUSH rA then POP rA, for every register r7
included, restores every register, and the cell below SP keeps the pushed value. -/
def Obligations.PushThenPopRoundTrip : Prop :=
  ∀ (s : State) (a : Fin 8), s.cfg.wf = true → s.mem.wf = true → 1 ≤ s.x[7].toNat →
    s.x[7].toNat ≤ s.cfg.spInit.toNat →
      ∃ t u, exec (.push (registerByte a)) s = .next t ∧ exec (.pop (registerByte a)) t = .next u ∧
        u.x = s.x ∧ u.run = s.run ∧
        u.mem.read (s.x[7].toNat - 1) = (if a = 7 then BitVec.ofNat 8 (s.x[7].toNat - 1) else s.x[a]) ∧
        ∀ b, b ≠ s.x[7].toNat - 1 → u.mem.read b = s.mem.read b

/-- 43_stack_call.md section 3: with 1 <= SP <= `SP_INIT`, CALL moves SP down by 1 and goes to x[A]; a
subroutine that leaves SP and the cell at SP as it found them, then RET, ends at the literal return
address with SP as before the CALL. -/
def Obligations.CallThenRetReturns : Prop :=
  ∀ (s : State) (a : Fin 8) (imm : Byte), s.cfg.wf = true → s.mem.wf = true → 1 ≤ s.x[7].toNat →
    s.x[7].toNat ≤ s.cfg.spInit.toNat →
      ∃ t, exec (.call (registerByte a) imm) s = .next t ∧
        t.x[7].toNat = s.x[7].toNat - 1 ∧ t.pc = t.x[a].toNat ∧ (∀ q : Fin 8, q ≠ 7 → t.x[q] = s.x[q]) ∧
        ∀ u : State, u.cfg = t.cfg → u.x[7] = t.x[7] →
          u.mem.read t.x[7].toNat = t.mem.read t.x[7].toNat →
            ∃ v, exec .ret u = .next v ∧ v.pc = imm.toNat ∧ v.x[7] = s.x[7]

/-- 20_memory.md R52: fetch reads the cells at pc, pc+1 and pc+2; PUSH and CALL write one byte, at the
decremented SP; POP and RET read one byte, at SP; no other instruction reads or writes memory. -/
def Obligations.OnlyTheseAccessesReachMemory : Prop :=
  (∀ (s : State) (m : Memory),
    m.read s.pc = s.mem.read s.pc → m.read (s.pc + 1) = s.mem.read (s.pc + 1) →
    m.read (s.pc + 2) = s.mem.read (s.pc + 2) → State.fetch { s with mem := m } = s.fetch) ∧
  (∀ (s t : State) (i : Instr), i.mnemonic ∉ [Mnemonic.push, .call, .pop, .ret] → exec i s = .next t →
    t.mem = s.mem ∧ ∀ m : Memory, exec i { s with mem := m } = .next { t with mem := m }) ∧
  (∀ (s t : State) (i : Instr), i.mnemonic ∈ [Mnemonic.push, .call] → s.mem.wf = true →
    exec i s = .next t →
      (∀ b, b ≠ s.sp.toNat - 1 → t.mem.read b = s.mem.read b) ∧
      ∀ m : Memory, ∃ m', exec i { s with mem := m } = .next { t with mem := m' }) ∧
  (∀ (s t : State) (i : Instr), i.mnemonic ∈ [Mnemonic.pop, .ret] → exec i s = .next t →
    t.mem = s.mem ∧ ∀ m : Memory, m.read s.sp.toNat = s.mem.read s.sp.toNat →
      exec i { s with mem := m } = .next { t with mem := m })

/-! ## Control and output -/

/-- 44_control_io.md: NOP advances `pc` by 1 and changes nothing else. -/
def Obligations.NopOnlyAdvances : Prop :=
  ∀ s : State, exec .nop s = .next { s with pc := s.pc + 1 }

/-- 44_control_io.md R171 (the spec's decision D15): HLT, opcode `OPMAP(HLT)` (0x01 in the default map),
ignores the other two bytes, halts and still advances `pc` by 1; after it there is no step. -/
def Obligations.HltHaltsAndAdvances : Prop :=
  (∀ (c : Config) (a b : Byte), c.wf = true → decode c c.opMap.hlt a b = .ok .hlt) ∧
  Config.default.opMap.hlt = 0x01 ∧
  (∀ s : State, exec .hlt s = .next { s with run := .halted, pc := s.pc + 1 }) ∧
  (∀ s t u : State, exec .hlt s = .next t → step t ≠ .next u)

/-- 44_control_io.md: IRET halts exactly as HLT, with no stack and no flag touched (the spec's D15). -/
def Obligations.IretHaltsLikeHlt : Prop :=
  (∀ s : State, exec .iret s = .next { s with run := .halted, pc := s.pc + 1 }) ∧
  (∀ s : State, exec .iret s = exec .hlt s)

/-- 44_control_io.md R173: LDI, opcode `OPMAP(LDI)` (0x82 in the default map), writes the literal, any byte,
to rA, r7 included, and advances by 3; rA outside 0..7 faults. -/
def Obligations.LdiLoadsTheLiteral : Prop :=
  (∀ (c : Config) (a b : Byte), c.wf = true → decode c c.opMap.ldi a b = .ok (.ldi a b)) ∧
  Config.default.opMap.ldi = 0x82 ∧
  (∀ (s : State) (a : Fin 8) (imm : Byte),
    exec (.ldi (registerByte a) imm) s = .next { s with x := s.x.set a imm, pc := s.pc + 3 }) ∧
  (∀ (s : State) (rA imm : Byte), 8 ≤ rA.toNat →
    exec (.ldi rA imm) s = .next { s with run := .faulted (.outOfRangeAccess .register rA.toNat) })

/-- 44_control_io.md R174 (the spec's decision D25): PRN, opcode `OPMAP(PRN)` (0x47 in the default map),
appends x[A] to `OUT`, ignores the byte at pc+2, writes no register and no memory, and advances by 2;
rA outside 0..7 faults. -/
def Obligations.PrnEmitsTheRegister : Prop :=
  (∀ (c : Config) (a b : Byte), c.wf = true → decode c c.opMap.prn a b = .ok (.prn a)) ∧
  Config.default.opMap.prn = 0x47 ∧
  (∀ (s : State) (a : Fin 8),
    exec (.prn (registerByte a)) s = .next { s with out := s.out ++ [s.x[a]], pc := s.pc + 2 }) ∧
  (∀ (s : State) (rA : Byte), 8 ≤ rA.toNat →
    exec (.prn rA) s = .next { s with run := .faulted (.outOfRangeAccess .register rA.toNat) })

/-- 10_state.md R33 (the spec's decisions D25, D26): `OUT` is empty at reset and is what PRN has emitted, in
order: each step keeps it or, for a PRN, appends the register's byte, so no later fault removes one;
and the core never reads it: with any other `OUT` a step does the same and appends the same. -/
def Obligations.OutputOnlyGrowsByPrn : Prop :=
  (∀ c : Config, (State.resetWith c).out = []) ∧
  (∀ s t : State, step s = .next t →
    t.out = s.out ∨
      ∃ r v, s.nextInstr = .ok (.prn r) ∧ s.x[r.toNat]? = some v ∧ t.out = s.out ++ [v]) ∧
  (∀ (s t : State) (o : List Byte), step s = .next t →
    ∃ added, t.out = s.out ++ added ∧ step { s with out := o } = .next { t with out := o ++ added })

/-! ## Frames

What each instruction leaves unchanged when `exec` answers a next state, a fault taken included, in the
terms of the instruction's own operand bytes; grouped by shape. `pc` may change. -/

/-- The ALU instructions and LDI: nothing but the destination rA (and, by a fault, `RUN`); every byte of
memory reads as before. -/
def Obligations.RegisterResultFrame : Prop :=
  ∀ (s t : State) (i : Instr),
    i.mnemonic ∈ [Mnemonic.add, .sub, .mul, .div, .mod, .and, .or, .xor, .not, .shl, .shr, .ldi] →
    exec i s = .next t →
      (∀ r : Fin 8, i.operandBytes.head? ≠ some (registerByte r) → t.x[r] = s.x[r]) ∧
      t.fl = s.fl ∧ t.out = s.out ∧ t.cfg = s.cfg ∧ (∀ a, t.mem.read a = s.mem.read a) ∧
      (t.run = s.run ∨ ∃ f, t.run = .faulted f)

/-- PUSH and CALL, the storing forms: nothing but SP and the byte at the address the push opens, which
`openSlot` computes as the meaning does; where it opens none, every byte reads as before. -/
def Obligations.StoringFrame : Prop :=
  ∀ (s t : State) (i : Instr), i.mnemonic ∈ [Mnemonic.push, .call] → s.mem.wf = true →
    exec i s = .next t →
      (∀ r : Fin 8, r ≠ 7 → t.x[r] = s.x[r]) ∧ t.fl = s.fl ∧ t.out = s.out ∧ t.cfg = s.cfg ∧
      (∀ slot, s.openSlot = .ok slot → ∀ a, a ≠ slot.sp.toNat → t.mem.read a = s.mem.read a) ∧
      ((∀ slot, s.openSlot ≠ .ok slot) → ∀ a, t.mem.read a = s.mem.read a) ∧
      (t.run = s.run ∨ ∃ f, t.run = .faulted f)

/-- POP and RET: nothing but SP and, for POP, rA; every byte of memory reads as before. -/
def Obligations.PoppingFrame : Prop :=
  ∀ (s t : State) (i : Instr), i.mnemonic ∈ [Mnemonic.pop, .ret] → exec i s = .next t →
    (∀ r : Fin 8, r ≠ 7 → i.operandBytes.head? ≠ some (registerByte r) → t.x[r] = s.x[r]) ∧
    t.fl = s.fl ∧ t.out = s.out ∧ t.cfg = s.cfg ∧ (∀ a, t.mem.read a = s.mem.read a) ∧
    (t.run = s.run ∨ ∃ f, t.run = .faulted f)

/-- CMP, the jumps, PRN, NOP, HLT and IRET: no register and no byte of memory changes; `FL` only by CMP,
`OUT` only by PRN, `RUN` to `Halted` only by HLT and IRET. -/
def Obligations.NoRegisterFrame : Prop :=
  ∀ (s t : State) (i : Instr),
    i.mnemonic ∈ [Mnemonic.cmp, .jmp, .jeq, .jne, .prn, .nop, .hlt, .iret] → exec i s = .next t →
      t.x = s.x ∧ t.cfg = s.cfg ∧ (∀ a, t.mem.read a = s.mem.read a) ∧
      (i.mnemonic ≠ .cmp → t.fl = s.fl) ∧ (i.mnemonic ≠ .prn → t.out = s.out) ∧
      (t.run = s.run ∨ (∃ f, t.run = .faulted f) ∨ (i.mnemonic ∈ [Mnemonic.hlt, .iret] ∧ t.run = .halted))

/-! ## Invariants -/

/-- The reset state, and every state `boot` answers, meets the invariant `State.Inv`. -/
def Obligations.ResetMeetsTheInvariant : Prop :=
  State.reset.Inv ∧ ∀ (c : Config) (image : List Nat) (s : State), boot c image = .next s → s.Inv

/-- Every step keeps `State.Inv`: the configuration admitted, memory canonical and inside its `MEM_SIZE`
cells, `pc` <= max(MEM_SIZE, 255), `FL` 0 or one flag. From every state that meets it, not only
those of runs. -/
def Obligations.StepKeepsTheInvariant : Prop :=
  ∀ s t : State, s.Inv → step s = .next t → t.Inv

/-- 10_state.md section 3: `pc` never wraps and stays at or below max(MEM_SIZE, 255) in every state
reached from a booted one, whatever the image; and the whole invariant with it. -/
def Obligations.BootedRunsKeepTheInvariant : Prop :=
  ∀ (c : Config) (image : List Nat) (s t : State), boot c image = .next s → Reaches s t →
    t.pc ≤ max t.cfg.memSize 255 ∧ t.cfg = c ∧ t.Inv

/-- The model's own field `cfg` (notes/assumptions/1.md) is a configuration: no step changes it. -/
def Obligations.StepKeepsTheConfiguration : Prop :=
  ∀ s t : State, step s = .next t → t.cfg = s.cfg
end

