-- ==== Sys2Proof/Laws/Decode.lean ====
section
/-! SUPPORT. Small lemmas about the encoding tables, the lookup and the decoder. -/

namespace Sys2Proof

theorem Mnemonic.mem_all (m : Mnemonic) : m ∈ Mnemonic.all := by
  cases m <;> decide

theorem Config.mem_enabledMnemonics {c : Config} {m : Mnemonic} :
    m ∈ c.enabledMnemonics ↔ c.enabled m = true := by
  simp [Config.enabledMnemonics, Mnemonic.mem_all]

@[simp] theorem Mnemonic.mnemonic_toInstr (m : Mnemonic) (a b : Byte) : (m.toInstr a b).mnemonic = m := by
  cases m <;> rfl

/-- What the lookup answers is enabled and has the byte looked up. -/
theorem Config.lookup_sound {c : Config} {op : Byte} {m : Mnemonic} (h : c.lookup op = some m) :
    c.enabled m = true ∧ c.opMap.code m = op := by
  unfold Config.lookup at h
  exact ⟨Config.mem_enabledMnemonics.mp (List.mem_of_find?_eq_some h), by simpa using List.find?_some h⟩

/-- The lookup answers nothing only where no enabled mnemonic has the byte. -/
theorem Config.lookup_none {c : Config} {op : Byte} :
    c.lookup op = none ↔ ∀ m, c.enabled m = true → c.opMap.code m ≠ op := by
  simp [Config.lookup, List.find?_eq_none, Config.mem_enabledMnemonics]

theorem decode_of_lookup {c : Config} {op : Byte} {m : Mnemonic} (h : c.lookup op = some m) (a b : Byte) :
    decode c op a b = .ok (m.toInstr a b) := by
  simp [decode, h]

theorem decode_of_lookup_none {c : Config} {op : Byte} (h : c.lookup op = none) (a b : Byte) :
    decode c op a b = .error (.unknownOpcode op) := by
  simp [decode, h]

/-- What a successful decode says of the opcode byte. -/
theorem decode_ok {c : Config} {op a b : Byte} {i : Instr} (h : decode c op a b = .ok i) :
    ∃ m, c.lookup op = some m ∧ i = m.toInstr a b := by
  unfold decode at h
  split at h
  case h_1 m hm => exact ⟨m, hm, by simpa using h.symm⟩
  case h_2 => simp at h

theorem encode_length (c : Config) (i : Instr) : (encode c i).length = 1 + i.operandBytes.length := by
  simp [encode, Nat.add_comm]

end Sys2Proof
end

