-- ==== Sys2Proof/Laws/Memory.lean ====
section
/-! SUPPORT. The laws of memory: reading after a write, and that every operation keeps the canonical form. -/

namespace Sys2Proof.Machine

@[simp] theorem Memory.unlisted_eq : Memory.unlisted = 0#8 := rfl

@[simp] theorem Memory.read_nil (a : Nat) : Memory.read [] a = 0 := rfl

@[simp] theorem Memory.wf_nil : Memory.wf [] = true := rfl

@[simp] theorem Memory.below_nil (n : Nat) : Memory.below n [] = true := rfl

theorem Memory.wfFrom_cons {lo a : Nat} {v : Byte} {rest : Memory} :
    Memory.wfFrom lo ((a, v) :: rest) = true ↔
      lo ≤ a ∧ v ≠ 0 ∧ Memory.wfFrom (a + 1) rest = true := by
  rw [Memory.wfFrom, Bool.and_eq_true, Bool.and_eq_true, decide_eq_true_iff, decide_eq_true_iff, and_assoc]
  rfl

@[simp] theorem Memory.below_cons {n : Nat} {c : Host.Cell} {rest : Memory} :
    Memory.below n (c :: rest) = true ↔ c.1 < n ∧ Memory.below n rest = true := by
  simp only [Memory.below, List.all_cons, Bool.and_eq_true, decide_eq_true_iff]

theorem Memory.wfFrom_mono {lo lo' : Nat} (h : lo' ≤ lo) {m : Memory}
    (hm : Memory.wfFrom lo m = true) : Memory.wfFrom lo' m = true := by
  cases m with
  | nil => rfl
  | cons c rest =>
    obtain ⟨hlo, hv, hrest⟩ := Memory.wfFrom_cons.mp hm
    exact Memory.wfFrom_cons.mpr ⟨h.trans hlo, hv, hrest⟩

/-- Below its first address a canonical memory is unlisted. -/
theorem Memory.read_of_lt {lo a : Nat} {m : Memory} (hm : Memory.wfFrom lo m = true) (h : a < lo) :
    Memory.read m a = 0 := by
  induction m generalizing lo with
  | nil => rfl
  | cons c rest ih =>
    obtain ⟨b, w⟩ := c
    obtain ⟨hlo, -, hrest⟩ := Memory.wfFrom_cons.mp hm
    have hab : a ≠ b := by omega
    simpa [Memory.read, hab] using ih hrest (by omega)

theorem Memory.read_write_from {lo : Nat} {m : Memory} (hm : Memory.wfFrom lo m = true) (a : Nat)
    (v : Byte) (b : Nat) : Memory.read (Memory.write m a v) b = if b = a then v else Memory.read m b := by
  induction m generalizing lo with
  | nil =>
    unfold Memory.write
    split
    case isTrue hv => simp [hv]
    case isFalse => simp [Memory.read]
  | cons c rest ih =>
    obtain ⟨d, w⟩ := c
    obtain ⟨-, -, hrest⟩ := Memory.wfFrom_cons.mp hm
    unfold Memory.write
    split
    case isTrue hlt =>
      split
      case isTrue hv =>
        by_cases hb : b = a
        · have : Memory.read ((d, w) :: rest) a = 0 :=
            Memory.read_of_lt (lo := d) (Memory.wfFrom_cons.mpr ⟨le_rfl, (Memory.wfFrom_cons.mp hm).2.1, hrest⟩) hlt
          simp [hb, this, hv]
        · simp [hb]
      case isFalse => simp [Memory.read]
    case isFalse hge =>
      split
      case isTrue heq =>
        subst heq
        split
        case isTrue hv =>
          by_cases hb : b = a
          · simp [hb, hv, Memory.read_of_lt hrest (Nat.lt_succ_self a)]
          · simp [hb, Memory.read]
        case isFalse => by_cases hb : b = a <;> simp [hb, Memory.read]
      case isFalse hne =>
        by_cases hb : b = d
        · have : d ≠ a := fun e => hne e.symm
          simp [Memory.read, hb, this]
        · simp [Memory.read, hb, ih hrest]

/-- Reading after a write, of the same cell and of any other. -/
theorem Memory.read_write {m : Memory} (hm : m.wf = true) (a : Nat) (v : Byte) (b : Nat) :
    Memory.read (Memory.write m a v) b = if b = a then v else Memory.read m b :=
  Memory.read_write_from hm a v b

theorem Memory.wfFrom_write {lo : Nat} {m : Memory} (hm : Memory.wfFrom lo m = true) {a : Nat}
    (ha : lo ≤ a) (v : Byte) : Memory.wfFrom lo (Memory.write m a v) = true := by
  induction m generalizing lo with
  | nil =>
    unfold Memory.write
    split
    case isTrue => rfl
    case isFalse hv => exact Memory.wfFrom_cons.mpr ⟨ha, hv, rfl⟩
  | cons c rest ih =>
    obtain ⟨d, w⟩ := c
    obtain ⟨hlo, hw, hrest⟩ := Memory.wfFrom_cons.mp hm
    unfold Memory.write
    split
    case isTrue hlt =>
      split
      case isTrue => exact hm
      case isFalse hv =>
        exact Memory.wfFrom_cons.mpr ⟨ha, hv, Memory.wfFrom_cons.mpr ⟨hlt, hw, hrest⟩⟩
    case isFalse hge =>
      split
      case isTrue heq =>
        subst heq
        split
        case isTrue => exact Memory.wfFrom_mono (by omega) hrest
        case isFalse hv => exact Memory.wfFrom_cons.mpr ⟨ha, hv, hrest⟩
      case isFalse hne =>
        exact Memory.wfFrom_cons.mpr ⟨hlo, hw, ih hrest (by omega)⟩

/-- A write keeps the canonical form. -/
theorem Memory.wf_write {m : Memory} (hm : m.wf = true) (a : Nat) (v : Byte) :
    (Memory.write m a v).wf = true :=
  Memory.wfFrom_write hm (Nat.zero_le a) v

/-- A write inside memory lists no cell outside it. -/
theorem Memory.below_write {n : Nat} {m : Memory} (hm : m.below n = true) {a : Nat} (ha : a < n) (v : Byte) :
    (Memory.write m a v).below n = true := by
  induction m with
  | nil =>
    unfold Memory.write
    split
    case isTrue => rfl
    case isFalse => exact Memory.below_cons.mpr ⟨ha, rfl⟩
  | cons c rest ih =>
    obtain ⟨d, w⟩ := c
    obtain ⟨hd, hrest⟩ := Memory.below_cons.mp hm
    unfold Memory.write
    split_ifs
    · exact hm
    · exact Memory.below_cons.mpr ⟨ha, hm⟩
    · exact hrest
    · exact Memory.below_cons.mpr ⟨ha, hrest⟩
    · exact Memory.below_cons.mpr ⟨hd, ih hrest⟩

/-- A load keeps the canonical form. -/
theorem Memory.wf_load {m : Memory} (hm : m.wf = true) (a : Nat) (bs : List Byte) :
    (Memory.load m a bs).wf = true := by
  induction bs generalizing m a with
  | nil => exact hm
  | cons b rest ih => exact ih (Memory.wf_write hm a b) (a + 1)

/-- A load inside memory lists no cell outside it. -/
theorem Memory.below_load {n : Nat} {m : Memory} (hm : m.below n = true) {a : Nat} {bs : List Byte}
    (h : a + bs.length ≤ n) : (Memory.load m a bs).below n = true := by
  induction bs generalizing m a with
  | nil => exact hm
  | cons b rest ih =>
    simp only [List.length_cons] at h
    exact ih (Memory.below_write hm (by omega) b) (by omega)

theorem Memory.eq_of_read_from {lo : Nat} {m m' : Memory} (hm : Memory.wfFrom lo m = true)
    (hm' : Memory.wfFrom lo m' = true) (h : ∀ a, Memory.read m a = Memory.read m' a) : m = m' := by
  induction m generalizing lo m' with
  | nil =>
    cases m' with
    | nil => rfl
    | cons c rest =>
      obtain ⟨-, hv, -⟩ := Memory.wfFrom_cons.mp hm'
      exact absurd (by simpa [Memory.read] using (h c.1).symm) hv
  | cons c rest ih =>
    obtain ⟨a, v⟩ := c
    obtain ⟨hlo, hv, hrest⟩ := Memory.wfFrom_cons.mp hm
    cases m' with
    | nil => exact absurd (by simpa [Memory.read] using h a) hv
    | cons c' rest' =>
      obtain ⟨a', v'⟩ := c'
      obtain ⟨hlo', hv', hrest'⟩ := Memory.wfFrom_cons.mp hm'
      have heq : a = a' := by
        rcases Nat.lt_trichotomy a a' with hlt | heq | hlt
        · have := h a
          rw [Memory.read_of_lt (m := (a', v') :: rest') (lo := a')
            (Memory.wfFrom_cons.mpr ⟨le_rfl, hv', hrest'⟩) hlt] at this
          exact absurd (by simpa [Memory.read] using this) hv
        · exact heq
        · have := h a'
          rw [Memory.read_of_lt (m := (a, v) :: rest) (lo := a)
            (Memory.wfFrom_cons.mpr ⟨le_rfl, hv, hrest⟩) hlt] at this
          exact absurd (by simpa [Memory.read] using this.symm) hv'
      subst heq
      have hvv : v = v' := by simpa [Memory.read] using h a
      subst hvv
      congr 1
      refine ih hrest hrest' fun b => ?_
      by_cases hb : b = a
      · subst hb
        rw [Memory.read_of_lt hrest (Nat.lt_succ_self b), Memory.read_of_lt hrest' (Nat.lt_succ_self b)]
      · simpa [Memory.read, hb] using h b

/-- Equal contents are equal data: two canonical memories that read alike everywhere are the same list. -/
theorem Memory.eq_of_read {m m' : Memory} (hm : m.wf = true) (hm' : m'.wf = true)
    (h : ∀ a, Memory.read m a = Memory.read m' a) : m = m' :=
  Memory.eq_of_read_from hm hm' h

end Sys2Proof.Machine
end

