-- ==== Sys2Proof/Laws/State.lean ====
section
/-! SUPPORT. One lemma per field per update of State, true by definition, and reading a register after a
register write. -/

namespace Sys2Proof.Machine

/-! ### setReg -/

@[simp] theorem State.setReg_cfg (s : State) (r : Fin 8) (v : Byte) : (s.setReg r v).cfg = s.cfg := rfl
@[simp] theorem State.setReg_x (s : State) (r : Fin 8) (v : Byte) : (s.setReg r v).x = s.x.set r v := rfl
@[simp] theorem State.setReg_pc (s : State) (r : Fin 8) (v : Byte) : (s.setReg r v).pc = s.pc := rfl
@[simp] theorem State.setReg_fl (s : State) (r : Fin 8) (v : Byte) : (s.setReg r v).fl = s.fl := rfl
@[simp] theorem State.setReg_run (s : State) (r : Fin 8) (v : Byte) : (s.setReg r v).run = s.run := rfl
@[simp] theorem State.setReg_mem (s : State) (r : Fin 8) (v : Byte) : (s.setReg r v).mem = s.mem := rfl
@[simp] theorem State.setReg_out (s : State) (r : Fin 8) (v : Byte) : (s.setReg r v).out = s.out := rfl

/-! ### jump -/

@[simp] theorem State.jump_cfg (s : State) (v : Byte) : (s.jump v).cfg = s.cfg := rfl
@[simp] theorem State.jump_x (s : State) (v : Byte) : (s.jump v).x = s.x := rfl
@[simp] theorem State.jump_pc (s : State) (v : Byte) : (s.jump v).pc = v.toNat := rfl
@[simp] theorem State.jump_fl (s : State) (v : Byte) : (s.jump v).fl = s.fl := rfl
@[simp] theorem State.jump_run (s : State) (v : Byte) : (s.jump v).run = s.run := rfl
@[simp] theorem State.jump_mem (s : State) (v : Byte) : (s.jump v).mem = s.mem := rfl
@[simp] theorem State.jump_out (s : State) (v : Byte) : (s.jump v).out = s.out := rfl

/-! ### advance -/

@[simp] theorem State.advance_cfg (s : State) (m : Mnemonic) : (s.advance m).cfg = s.cfg := rfl
@[simp] theorem State.advance_x (s : State) (m : Mnemonic) : (s.advance m).x = s.x := rfl
@[simp] theorem State.advance_pc (s : State) (m : Mnemonic) : (s.advance m).pc = s.pc + 1 + m.arity := rfl
@[simp] theorem State.advance_fl (s : State) (m : Mnemonic) : (s.advance m).fl = s.fl := rfl
@[simp] theorem State.advance_run (s : State) (m : Mnemonic) : (s.advance m).run = s.run := rfl
@[simp] theorem State.advance_mem (s : State) (m : Mnemonic) : (s.advance m).mem = s.mem := rfl
@[simp] theorem State.advance_out (s : State) (m : Mnemonic) : (s.advance m).out = s.out := rfl

/-! ### emit -/

@[simp] theorem State.emit_cfg (s : State) (v : Byte) : (s.emit v).cfg = s.cfg := rfl
@[simp] theorem State.emit_x (s : State) (v : Byte) : (s.emit v).x = s.x := rfl
@[simp] theorem State.emit_pc (s : State) (v : Byte) : (s.emit v).pc = s.pc := rfl
@[simp] theorem State.emit_fl (s : State) (v : Byte) : (s.emit v).fl = s.fl := rfl
@[simp] theorem State.emit_run (s : State) (v : Byte) : (s.emit v).run = s.run := rfl
@[simp] theorem State.emit_mem (s : State) (v : Byte) : (s.emit v).mem = s.mem := rfl
@[simp] theorem State.emit_out (s : State) (v : Byte) : (s.emit v).out = s.out ++ [v] := rfl

/-! ### takeFault -/

@[simp] theorem State.takeFault_cfg (s : State) (f : FaultCause) : (s.takeFault f).cfg = s.cfg := rfl
@[simp] theorem State.takeFault_x (s : State) (f : FaultCause) : (s.takeFault f).x = s.x := rfl
@[simp] theorem State.takeFault_pc (s : State) (f : FaultCause) : (s.takeFault f).pc = s.pc := rfl
@[simp] theorem State.takeFault_fl (s : State) (f : FaultCause) : (s.takeFault f).fl = s.fl := rfl
@[simp] theorem State.takeFault_run (s : State) (f : FaultCause) : (s.takeFault f).run = .faulted f := rfl
@[simp] theorem State.takeFault_mem (s : State) (f : FaultCause) : (s.takeFault f).mem = s.mem := rfl
@[simp] theorem State.takeFault_out (s : State) (f : FaultCause) : (s.takeFault f).out = s.out := rfl

/-! ### halt -/

@[simp] theorem State.halt_cfg (s : State) : (s.halt).cfg = s.cfg := rfl
@[simp] theorem State.halt_x (s : State) : (s.halt).x = s.x := rfl
@[simp] theorem State.halt_pc (s : State) : (s.halt).pc = s.pc := rfl
@[simp] theorem State.halt_fl (s : State) : (s.halt).fl = s.fl := rfl
@[simp] theorem State.halt_run (s : State) : (s.halt).run = .halted := rfl
@[simp] theorem State.halt_mem (s : State) : (s.halt).mem = s.mem := rfl
@[simp] theorem State.halt_out (s : State) : (s.halt).out = s.out := rfl

/-! ### setFlags -/

@[simp] theorem State.setFlags_cfg (s : State) (v : Byte) : (s.setFlags v).cfg = s.cfg := rfl
@[simp] theorem State.setFlags_x (s : State) (v : Byte) : (s.setFlags v).x = s.x := rfl
@[simp] theorem State.setFlags_pc (s : State) (v : Byte) : (s.setFlags v).pc = s.pc := rfl
@[simp] theorem State.setFlags_fl (s : State) (v : Byte) : (s.setFlags v).fl = v := rfl
@[simp] theorem State.setFlags_run (s : State) (v : Byte) : (s.setFlags v).run = s.run := rfl
@[simp] theorem State.setFlags_mem (s : State) (v : Byte) : (s.setFlags v).mem = s.mem := rfl
@[simp] theorem State.setFlags_out (s : State) (v : Byte) : (s.setFlags v).out = s.out := rfl

/-! ### closeSlot -/

@[simp] theorem State.closeSlot_cfg (s : State) : (s.closeSlot).cfg = s.cfg := rfl
@[simp] theorem State.closeSlot_x (s : State) : (s.closeSlot).x = s.x.set spReg (mask8 (s.sp.toNat + 1)) := rfl
@[simp] theorem State.closeSlot_pc (s : State) : (s.closeSlot).pc = s.pc := rfl
@[simp] theorem State.closeSlot_fl (s : State) : (s.closeSlot).fl = s.fl := rfl
@[simp] theorem State.closeSlot_run (s : State) : (s.closeSlot).run = s.run := rfl
@[simp] theorem State.closeSlot_mem (s : State) : (s.closeSlot).mem = s.mem := rfl
@[simp] theorem State.closeSlot_out (s : State) : (s.closeSlot).out = s.out := rfl

/-! ### Registers -/

@[simp] theorem State.reg_setReg_same (s : State) (r : Fin 8) (v : Byte) : (s.setReg r v).reg r = v := by
  simp [State.reg, State.setReg]

theorem State.reg_setReg_other (s : State) {r q : Fin 8} (v : Byte) (h : q ≠ r) :
    (s.setReg r v).reg q = s.reg q := by
  have : r.val ≠ q.val := fun e => h (Fin.ext e.symm)
  simp [State.reg, State.setReg, this]

theorem State.reg_of_x {s t : State} (h : t.x = s.x) (r : Fin 8) : t.reg r = s.reg r := by
  simp [State.reg, h]

theorem State.sp_eq (s : State) : s.sp = s.x[7] := rfl

@[simp] theorem mask8_natCast (n : Nat) : mask8 (n : Int) = BitVec.ofNat 8 n := by
  simp [mask8]

/-- SP moving up by one. -/
theorem mask8_add_one (n : Nat) : mask8 ((n : Int) + 1) = BitVec.ofNat 8 (n + 1) :=
  mask8_natCast (n + 1)

/-- SP moving down by one. -/
theorem mask8_sub_one {n : Nat} (h : n ≠ 0) : mask8 ((n : Int) - 1) = BitVec.ofNat 8 (n - 1) := by
  rw [← mask8_natCast (n - 1), Nat.cast_sub (Nat.one_le_iff_ne_zero.mpr h), Nat.cast_one]

end Sys2Proof.Machine
end

