-- ==== Sys2Proof/Laws/Ops.lean ====
section
/-! SUPPORT. For each shared operation, what it answers and everything it can do. -/

namespace Sys2Proof.Machine

/-! ### Sequencing of checks -/

@[simp] theorem bind_ok_left {ε α β : Type} (a : α) (k : α → Except ε β) : (Except.ok a >>= k) = k a := rfl

@[simp] theorem bind_error_left {ε α β : Type} (e : ε) (k : α → Except ε β) :
    ((Except.error e : Except ε α) >>= k) = .error e := rfl

theorem bind_eq_ok {ε α β : Type} {r : Except ε α} {k : α → Except ε β} {b : β} :
    (r >>= k) = .ok b ↔ ∃ a, r = .ok a ∧ k a = .ok b := by
  cases r <;> simp

theorem bind_eq_error {ε α β : Type} {r : Except ε α} {k : α → Except ε β} {e : ε} :
    (r >>= k) = .error e ↔ r = .error e ∨ ∃ a, r = .ok a ∧ k a = .error e := by
  cases r <;> simp

/-! ### How a step ends -/

@[simp] theorem finish_ok (s t : State) : finish s (.ok t) = .next t := rfl

@[simp] theorem finish_error (s : State) (f : FaultCause) : finish s (.error f) = .next (s.takeFault f) := rfl

/-- Ending a step answers a next state: the handler's, or the fault taken in the old one. -/
theorem finish_eq_next {s t : State} {r : Except FaultCause State} :
    finish s r = .next t ↔ r = .ok t ∨ ∃ f, r = .error f ∧ t = s.takeFault f := by
  cases r <;> simp [finish, eq_comm]

theorem exists_finish_eq_next (s : State) (r : Except FaultCause State) : ∃ t, finish s r = .next t := by
  cases r <;> exact ⟨_, rfl⟩

/-! ### Register operands -/

@[simp] theorem registerByte_toNat (r : Fin 8) : (registerByte r).toNat = r.val := by
  simp only [registerByte, BitVec.toNat_ofNat]
  omega

@[simp] theorem registerOperand_registerByte (r : Fin 8) : registerOperand (registerByte r) = .ok r := by
  simp [registerOperand]

theorem registerOperand_of_lt {byte : Byte} (h : byte.toNat < 8) :
    registerOperand byte = .ok ⟨byte.toNat, h⟩ := by
  simp [registerOperand, h]

theorem registerOperand_of_ge {byte : Byte} (h : 8 ≤ byte.toNat) :
    registerOperand byte = .error (.outOfRangeAccess .register byte.toNat) := by
  simp [registerOperand, Nat.not_lt.mpr h]

theorem registerOperand_eq_ok {byte : Byte} {r : Fin 8} :
    registerOperand byte = .ok r ↔ byte = registerByte r := by
  constructor
  · intro h
    unfold registerOperand at h
    split at h
    · injection h with h
      subst h
      exact BitVec.eq_of_toNat_eq (by simp)
    · cases h
  · rintro rfl
    exact registerOperand_registerByte r

@[simp] theorem registerPair_registerByte (a b : Fin 8) :
    registerPair (registerByte a) (registerByte b) = .ok (a, b) := by
  simp [registerPair]

/-! ### Memory accesses -/

theorem State.memRead_of_lt {s : State} {a : Nat} (h : a < s.cfg.memSize) :
    s.memRead a = .ok (s.mem.read a) := if_pos h

theorem State.memRead_of_ge {s : State} {a : Nat} (h : s.cfg.memSize ≤ a) :
    s.memRead a = .error (.outOfRangeAccess .memory a) := if_neg (Nat.not_lt.mpr h)

theorem State.memWrite_of_lt {s : State} {a : Nat} (h : a < s.cfg.memSize) (v : Byte) :
    s.memWrite a v = .ok { s with mem := s.mem.write a v } := if_pos h

theorem State.memWrite_of_ge {s : State} {a : Nat} (h : s.cfg.memSize ≤ a) (v : Byte) :
    s.memWrite a v = .error (.outOfRangeAccess .memory a) := if_neg (Nat.not_lt.mpr h)

/-- A store that succeeds is in memory, and writes one cell. -/
theorem State.memWrite_eq_ok {s t : State} {a : Nat} {v : Byte} :
    s.memWrite a v = .ok t ↔ a < s.cfg.memSize ∧ t = { s with mem := s.mem.write a v } := by
  by_cases h : a < s.cfg.memSize
  · simp [State.memWrite_of_lt h, h, eq_comm]
  · simp [State.memWrite_of_ge (Nat.not_lt.mp h), h]

/-- A load that succeeds is in memory, and reads one cell. -/
theorem State.memRead_eq_ok {s : State} {a : Nat} {v : Byte} :
    s.memRead a = .ok v ↔ a < s.cfg.memSize ∧ v = s.mem.read a := by
  by_cases h : a < s.cfg.memSize
  · simp [State.memRead_of_lt h, h, eq_comm]
  · simp [State.memRead_of_ge (Nat.not_lt.mp h), h]

/-! ### The stack unit's steps -/

/-- Opening a slot that succeeds: SP was not 0 and moved down by one. -/
theorem State.openSlot_eq_ok {s t : State} :
    s.openSlot = .ok t ↔ s.sp ≠ 0 ∧ t = s.setReg spReg (mask8 (s.sp.toNat - 1)) := by
  unfold State.openSlot
  split
  case isTrue h => simp [h]
  case isFalse h => exact ⟨fun e => ⟨h, by cases e; rfl⟩, fun ⟨_, e⟩ => by rw [e]⟩

/-- SP after a slot was opened. -/
theorem State.sp_of_openSlot {s t : State} (h : s.openSlot = .ok t) : t.sp.toNat = s.sp.toNat - 1 := by
  obtain ⟨h0, rfl⟩ := State.openSlot_eq_ok.mp h
  have hpos : 1 ≤ s.sp.toNat := Nat.one_le_iff_ne_zero.mpr fun e => h0 (BitVec.eq_of_toNat_eq (by simpa using e))
  have hlt := s.sp.isLt
  have : ((s.sp.toNat : Int) - 1) = ((s.sp.toNat - 1 : Nat) : Int) := by omega
  rw [this, mask8_natCast, State.sp, State.reg_setReg_same, BitVec.toNat_ofNat]
  exact Nat.mod_eq_of_lt (by omega)

/-- A pop's read that succeeds: SP was below `SP_INIT` and in memory. -/
theorem State.stackTop_eq_ok {s : State} {v : Byte} :
    s.stackTop = .ok v ↔
      s.sp.toNat < s.cfg.spInit.toNat ∧ s.sp.toNat < s.cfg.memSize ∧ v = s.mem.read s.sp.toNat := by
  unfold State.stackTop
  split
  case isTrue h => simp [Nat.not_lt.mpr h]
  case isFalse h => simp [State.memRead_eq_ok, Nat.not_le.mp h]

/-! ### Fetch -/

/-- A fetch that succeeds: three cells in memory, as they are. -/
theorem State.fetch_eq_ok {s : State} {l : Latch} :
    s.fetch = .ok l ↔ s.pc + 2 < s.cfg.memSize ∧
      l = ⟨s.mem.read s.pc, s.mem.read (s.pc + 1), s.mem.read (s.pc + 2)⟩ := by
  simp only [State.fetch, bind_eq_ok, State.memRead_eq_ok, pure, Except.pure, Except.ok.injEq]
  constructor
  · rintro ⟨_, ⟨-, rfl⟩, _, ⟨-, rfl⟩, _, ⟨h2, rfl⟩, rfl⟩
    exact ⟨h2, rfl⟩
  · rintro ⟨h, rfl⟩
    exact ⟨_, ⟨by omega, rfl⟩, _, ⟨by omega, rfl⟩, _, ⟨h, rfl⟩, rfl⟩

end Sys2Proof.Machine
end

