-- ==== Sys2Proof/Laws/Exec.lean ====
section
/-! SUPPORT. For each shared form of a meaning, everything it can do when it answers a next state: the
fault taken, with nothing else changed, or the handler's own effect. -/

namespace Sys2Proof.Machine

theorem aluInstr_next {m : Mnemonic} {rA rB : Byte} {s t : State} (h : aluInstr m rA rB s = .next t) :
    (∃ f, t = s.takeFault f) ∨
      ∃ a b v, rA = registerByte a ∧ rB = registerByte b ∧ aluApply m (s.reg a) (s.reg b) = .ok v ∧
        t = (s.setReg a v).advance m := by
  rcases finish_eq_next.mp h with h | ⟨f, -, rfl⟩
  · right
    obtain ⟨⟨a, b⟩, hab, h⟩ := bind_eq_ok.mp h
    obtain ⟨v, hv, h⟩ := bind_eq_ok.mp h
    obtain ⟨a', ha, hab⟩ := bind_eq_ok.mp hab
    obtain ⟨b', hb, hab⟩ := bind_eq_ok.mp hab
    cases hab
    cases h
    exact ⟨a, b, v, registerOperand_eq_ok.mp ha, registerOperand_eq_ok.mp hb, hv, rfl⟩
  · exact .inl ⟨f, rfl⟩

theorem aluInstrOne_next {m : Mnemonic} {rA : Byte} {s t : State} (h : aluInstrOne m rA s = .next t) :
    (∃ f, t = s.takeFault f) ∨
      ∃ a v, rA = registerByte a ∧ aluApply m (s.reg a) 0 = .ok v ∧ t = (s.setReg a v).advance m := by
  rcases finish_eq_next.mp h with h | ⟨f, -, rfl⟩
  · right
    obtain ⟨a, ha, h⟩ := bind_eq_ok.mp h
    obtain ⟨v, hv, h⟩ := bind_eq_ok.mp h
    cases h
    exact ⟨a, v, registerOperand_eq_ok.mp ha, hv, rfl⟩
  · exact .inl ⟨f, rfl⟩

theorem execCmp_next {rA rB : Byte} {s t : State} (h : execCmp rA rB s = .next t) :
    (∃ f, t = s.takeFault f) ∨
      ∃ a b, rA = registerByte a ∧ rB = registerByte b ∧
        t = (s.setFlags (compareFlags (s.reg a) (s.reg b))).advance .cmp := by
  rcases finish_eq_next.mp h with h | ⟨f, -, rfl⟩
  · right
    obtain ⟨⟨a, b⟩, hab, h⟩ := bind_eq_ok.mp h
    obtain ⟨a', ha, hab⟩ := bind_eq_ok.mp hab
    obtain ⟨b', hb, hab⟩ := bind_eq_ok.mp hab
    cases hab
    cases h
    exact ⟨a, b, registerOperand_eq_ok.mp ha, registerOperand_eq_ok.mp hb, rfl⟩
  · exact .inl ⟨f, rfl⟩

theorem branchIf_next {m : Mnemonic} {taken : Bool} {rA : Byte} {s t : State}
    (h : branchIf m taken rA s = .next t) :
    (∃ f, t = s.takeFault f) ∨
      ∃ a, rA = registerByte a ∧ t = if taken then s.jump (s.reg a) else s.advance m := by
  rcases finish_eq_next.mp h with h | ⟨f, -, rfl⟩
  · right
    obtain ⟨a, ha, h⟩ := bind_eq_ok.mp h
    cases h
    exact ⟨a, registerOperand_eq_ok.mp ha, rfl⟩
  · exact .inl ⟨f, rfl⟩

theorem execPush_next {rA : Byte} {s t : State} (h : execPush rA s = .next t) :
    (∃ f, t = s.takeFault f) ∨
      ∃ a slot, rA = registerByte a ∧ s.openSlot = .ok slot ∧ slot.sp.toNat < s.cfg.memSize ∧
        t = State.advance { slot with mem := slot.mem.write slot.sp.toNat (slot.reg a) } .push := by
  rcases finish_eq_next.mp h with h | ⟨f, -, rfl⟩
  · right
    obtain ⟨a, ha, h⟩ := bind_eq_ok.mp h
    obtain ⟨slot, hslot, h⟩ := bind_eq_ok.mp h
    obtain ⟨u, hu, h⟩ := bind_eq_ok.mp h
    obtain ⟨hlt, rfl⟩ := State.memWrite_eq_ok.mp hu
    cases h
    have hcfg : slot.cfg = s.cfg := by rw [(State.openSlot_eq_ok.mp hslot).2]; rfl
    exact ⟨a, slot, registerOperand_eq_ok.mp ha, hslot, hcfg ▸ hlt, rfl⟩
  · exact .inl ⟨f, rfl⟩

theorem execCall_next {rA imm : Byte} {s t : State} (h : execCall rA imm s = .next t) :
    (∃ f, t = s.takeFault f) ∨
      ∃ a slot, rA = registerByte a ∧ s.openSlot = .ok slot ∧ slot.sp.toNat < s.cfg.memSize ∧
        t = State.jump { slot with mem := slot.mem.write slot.sp.toNat imm } (slot.reg a) := by
  rcases finish_eq_next.mp h with h | ⟨f, -, rfl⟩
  · right
    obtain ⟨a, ha, h⟩ := bind_eq_ok.mp h
    obtain ⟨slot, hslot, h⟩ := bind_eq_ok.mp h
    obtain ⟨u, hu, h⟩ := bind_eq_ok.mp h
    obtain ⟨hlt, rfl⟩ := State.memWrite_eq_ok.mp hu
    cases h
    have hcfg : slot.cfg = s.cfg := by rw [(State.openSlot_eq_ok.mp hslot).2]; rfl
    exact ⟨a, slot, registerOperand_eq_ok.mp ha, hslot, hcfg ▸ hlt, rfl⟩
  · exact .inl ⟨f, rfl⟩

theorem execPop_next {rA : Byte} {s t : State} (h : execPop rA s = .next t) :
    (∃ f, t = s.takeFault f) ∨
      ∃ a v, rA = registerByte a ∧ s.stackTop = .ok v ∧
        t = State.advance (State.closeSlot (s.setReg a v)) .pop := by
  rcases finish_eq_next.mp h with h | ⟨f, -, rfl⟩
  · right
    obtain ⟨a, ha, h⟩ := bind_eq_ok.mp h
    obtain ⟨v, hv, h⟩ := bind_eq_ok.mp h
    cases h
    exact ⟨a, v, registerOperand_eq_ok.mp ha, hv, rfl⟩
  · exact .inl ⟨f, rfl⟩

theorem execRet_next {s t : State} (h : execRet s = .next t) :
    (∃ f, t = s.takeFault f) ∨ ∃ v, s.stackTop = .ok v ∧ t = (s.jump v).closeSlot := by
  rcases finish_eq_next.mp h with h | ⟨f, -, rfl⟩
  · right
    obtain ⟨v, hv, h⟩ := bind_eq_ok.mp h
    cases h
    exact ⟨v, hv, rfl⟩
  · exact .inl ⟨f, rfl⟩

theorem execLdi_next {rA imm : Byte} {s t : State} (h : execLdi rA imm s = .next t) :
    (∃ f, t = s.takeFault f) ∨ ∃ a, rA = registerByte a ∧ t = (s.setReg a imm).advance .ldi := by
  rcases finish_eq_next.mp h with h | ⟨f, -, rfl⟩
  · right
    obtain ⟨a, ha, h⟩ := bind_eq_ok.mp h
    cases h
    exact ⟨a, registerOperand_eq_ok.mp ha, rfl⟩
  · exact .inl ⟨f, rfl⟩

theorem execPrn_next {rA : Byte} {s t : State} (h : execPrn rA s = .next t) :
    (∃ f, t = s.takeFault f) ∨ ∃ a, rA = registerByte a ∧ t = (s.emit (s.reg a)).advance .prn := by
  rcases finish_eq_next.mp h with h | ⟨f, -, rfl⟩
  · right
    obtain ⟨a, ha, h⟩ := bind_eq_ok.mp h
    cases h
    exact ⟨a, registerOperand_eq_ok.mp ha, rfl⟩
  · exact .inl ⟨f, rfl⟩

theorem step_of_running {s : State} (h : s.run = .running) {i : Instr} (hi : s.nextInstr = .ok i) :
    step s = exec i s := by
  simp [step, h, hi]

theorem step_of_error {s : State} (h : s.run = .running) {f : FaultCause} (hf : s.nextInstr = .error f) :
    step s = .next (s.takeFault f) := by
  simp [step, h, hf]

/-- A step that answers a next state began in `Running`, and either took a fetch or decode fault or ran
the decoded instruction. -/
theorem step_next {s t : State} (h : step s = .next t) :
    s.run = .running ∧
      ((∃ f, s.nextInstr = .error f ∧ t = s.takeFault f) ∨ ∃ i, s.nextInstr = .ok i ∧ exec i s = .next t) := by
  cases hr : s.run with
  | running =>
    refine ⟨rfl, ?_⟩
    cases hn : s.nextInstr with
    | error f =>
      rw [step_of_error hr hn] at h
      injection h with h
      exact .inl ⟨f, rfl, h.symm⟩
    | ok i =>
      rw [step_of_running hr hn] at h
      exact .inr ⟨i, rfl, h⟩
  | halted => simp [step, hr] at h
  | faulted f => simp [step, hr] at h

end Sys2Proof.Machine
end

