-- ==== Sys2Proof/Laws/PerInstr.lean ====
section
/-! SUPPORT. A fact about every instruction as syntax, one lemma per constructor: its encoding is the opcode
byte and as many operand bytes as its arity says (30_encoding.md R70, R75), and the table makes the
instruction again from those bytes, whatever stands where its format has none (R74). -/

namespace Sys2Proof.Laws

/-- The shape of an instruction's encoding. -/
def EncodeShape.Statement (i : Instr) : Prop :=
  ∀ (c : Config) (pa pb : Byte),
    (encode c i).length = 1 + i.mnemonic.arity ∧
      i.mnemonic.toInstr (i.operandBytes.getD 0 pa) (i.operandBytes.getD 1 pb) = i

theorem EncodeShape.nop : EncodeShape.Statement .nop := fun _ _ _ => ⟨rfl, rfl⟩
theorem EncodeShape.hlt : EncodeShape.Statement .hlt := fun _ _ _ => ⟨rfl, rfl⟩
theorem EncodeShape.ret : EncodeShape.Statement .ret := fun _ _ _ => ⟨rfl, rfl⟩
theorem EncodeShape.iret : EncodeShape.Statement .iret := fun _ _ _ => ⟨rfl, rfl⟩
theorem EncodeShape.push (rA : Byte) : EncodeShape.Statement (.push rA) := fun _ _ _ => ⟨rfl, rfl⟩
theorem EncodeShape.pop (rA : Byte) : EncodeShape.Statement (.pop rA) := fun _ _ _ => ⟨rfl, rfl⟩
theorem EncodeShape.prn (rA : Byte) : EncodeShape.Statement (.prn rA) := fun _ _ _ => ⟨rfl, rfl⟩
theorem EncodeShape.call (rA imm : Byte) : EncodeShape.Statement (.call rA imm) := fun _ _ _ => ⟨rfl, rfl⟩
theorem EncodeShape.jmp (rA : Byte) : EncodeShape.Statement (.jmp rA) := fun _ _ _ => ⟨rfl, rfl⟩
theorem EncodeShape.jeq (rA : Byte) : EncodeShape.Statement (.jeq rA) := fun _ _ _ => ⟨rfl, rfl⟩
theorem EncodeShape.jne (rA : Byte) : EncodeShape.Statement (.jne rA) := fun _ _ _ => ⟨rfl, rfl⟩
theorem EncodeShape.ldi (rA imm : Byte) : EncodeShape.Statement (.ldi rA imm) := fun _ _ _ => ⟨rfl, rfl⟩
theorem EncodeShape.add (rA rB : Byte) : EncodeShape.Statement (.add rA rB) := fun _ _ _ => ⟨rfl, rfl⟩
theorem EncodeShape.sub (rA rB : Byte) : EncodeShape.Statement (.sub rA rB) := fun _ _ _ => ⟨rfl, rfl⟩
theorem EncodeShape.mul (rA rB : Byte) : EncodeShape.Statement (.mul rA rB) := fun _ _ _ => ⟨rfl, rfl⟩
theorem EncodeShape.div (rA rB : Byte) : EncodeShape.Statement (.div rA rB) := fun _ _ _ => ⟨rfl, rfl⟩
theorem EncodeShape.mod (rA rB : Byte) : EncodeShape.Statement (.mod rA rB) := fun _ _ _ => ⟨rfl, rfl⟩
theorem EncodeShape.cmp (rA rB : Byte) : EncodeShape.Statement (.cmp rA rB) := fun _ _ _ => ⟨rfl, rfl⟩
theorem EncodeShape.and (rA rB : Byte) : EncodeShape.Statement (.and rA rB) := fun _ _ _ => ⟨rfl, rfl⟩
theorem EncodeShape.or (rA rB : Byte) : EncodeShape.Statement (.or rA rB) := fun _ _ _ => ⟨rfl, rfl⟩
theorem EncodeShape.xor (rA rB : Byte) : EncodeShape.Statement (.xor rA rB) := fun _ _ _ => ⟨rfl, rfl⟩
theorem EncodeShape.not (rA : Byte) : EncodeShape.Statement (.not rA) := fun _ _ _ => ⟨rfl, rfl⟩
theorem EncodeShape.shl (rA rB : Byte) : EncodeShape.Statement (.shl rA rB) := fun _ _ _ => ⟨rfl, rfl⟩
theorem EncodeShape.shr (rA rB : Byte) : EncodeShape.Statement (.shr rA rB) := fun _ _ _ => ⟨rfl, rfl⟩

end Sys2Proof.Laws
end

