-- ==== Sys2Proof/Machine/Listing.lean ====
section
/-! DEFINITION. The spec's way of writing an instruction (30_encoding.md R82): the mnemonic, then the
operands in byte order, registers r0 to r7, literals in decimal. Notation only: nothing runs it. -/

namespace Sys2Proof.Machine

/-- A register operand as text. -/
def registerText (byte : Byte) : String :=
  "r" ++ byte.toNat.repr

/-- `MNEMONIC operands`. -/
def listing : Instr → String
  | .nop => "NOP"
  | .hlt => "HLT"
  | .ret => "RET"
  | .iret => "IRET"
  | .push rA => "PUSH " ++ registerText rA
  | .pop rA => "POP " ++ registerText rA
  | .prn rA => "PRN " ++ registerText rA
  | .call rA imm => "CALL " ++ registerText rA ++ ", " ++ imm.toNat.repr
  | .jmp rA => "JMP " ++ registerText rA
  | .jeq rA => "JEQ " ++ registerText rA
  | .jne rA => "JNE " ++ registerText rA
  | .ldi rA imm => "LDI " ++ registerText rA ++ ", " ++ imm.toNat.repr
  | .add rA rB => "ADD " ++ registerText rA ++ ", " ++ registerText rB
  | .sub rA rB => "SUB " ++ registerText rA ++ ", " ++ registerText rB
  | .mul rA rB => "MUL " ++ registerText rA ++ ", " ++ registerText rB
  | .div rA rB => "DIV " ++ registerText rA ++ ", " ++ registerText rB
  | .mod rA rB => "MOD " ++ registerText rA ++ ", " ++ registerText rB
  | .cmp rA rB => "CMP " ++ registerText rA ++ ", " ++ registerText rB
  | .and rA rB => "AND " ++ registerText rA ++ ", " ++ registerText rB
  | .or rA rB => "OR " ++ registerText rA ++ ", " ++ registerText rB
  | .xor rA rB => "XOR " ++ registerText rA ++ ", " ++ registerText rB
  | .not rA => "NOT " ++ registerText rA
  | .shl rA rB => "SHL " ++ registerText rA ++ ", " ++ registerText rB
  | .shr rA rB => "SHR " ++ registerText rA ++ ", " ++ registerText rB

end Sys2Proof.Machine
end

