-- ==== Sys2Proof/Tests/Slice0.lean ====
section
/-! SUPPORT. The model's own tests. Expected results come from the spec: the vectors V, E, A, X, B, S and K of
95_test_vectors.md and the words of 30_encoding.md R76, named in each comment. After them, for each
statement with hypotheses, a witness that meets them. -/

namespace Sys2Proof.Tests

open Sys2Proof Sys2Proof.Machine

/-! ## Helpers -/

/-- The state of an answer, if it is a next state. -/
def after (o : Host.Outcome State Fault Refusal) : Option State :=
  match o with
  | .next s => some s
  | .fault _ => none
  | .refused _ => none

/-- Reset with these registers, pc, flags and bytes at pc; every row of the opcode table enabled. -/
def start (x : Vector Byte 8) (pc : Nat) (fl : Byte) (bytes : List Byte) : State :=
  { State.resetWith Config.allRows with x := x, pc := pc, fl := fl, mem := Memory.load [] pc bytes }

/-- Registers r0, r1 and SP as given, the others 0. -/
def regs (r0 r1 sp : Byte) : Vector Byte 8 := #v[r0, r1, 0, 0, 0, 0, 0, sp]

/-- One step of an instruction at pc 0 with r0 and r1 given: r0, pc and the engine state after it. -/
def runOn (r0 r1 : Byte) (bytes : List Byte) : Option (Byte × Nat × EngineState) :=
  (after (step (start (regs r0 r1 0xF4) 0 0 bytes))).map fun s => (s.reg 0, s.pc, s.run)

/-- One step: the stack pointer, the cell 0xF3, pc and the engine state after it. -/
def stackAfter (s : State) : Option (Byte × Byte × Nat × EngineState) :=
  (after (step s)).map fun t => (t.sp, t.mem.read 0xF3, t.pc, t.run)

/-- A configuration with 128 cells, in which a store can leave memory. -/
def smallConfig : Config := { Config.default with memSize := 128, spInit := 0x40 }

/-! ## Well-formedness: each check refuses an ill-formed term -/

theorem smoke_wf_accepts : (Instr.add 7 0).wf Config.default = true := by decide
theorem smoke_wf_register_a : (Instr.push 8).wf Config.default = false := by decide
theorem smoke_wf_register_b : (Instr.add 0 8).wf Config.default = false := by decide
theorem smoke_wf_enabled : (Instr.shl 0 1).wf Config.default = false := by decide
theorem smoke_wf_literal_unchecked : (Instr.ldi 0 255).wf Config.default = true := by decide

theorem smoke_config_accepts : Config.default.wf = true ∧ smallConfig.wf = true := by decide
theorem smoke_config_size : ({ Config.default with memSize := 250 } : Config).wf = false := by decide
theorem smoke_config_sp_zero : ({ smallConfig with spInit := 0 } : Config).wf = false := by decide
theorem smoke_config_sp_above_memory : ({ smallConfig with spInit := 0x81 } : Config).wf = false := by decide
theorem smoke_config_sp_default_size : ({ Config.default with spInit := 0xF0 } : Config).wf = false := by decide
theorem smoke_config_injective :
    ({ Config.default with opMap := { OpMap.default with nop := 0x01 } } : Config).wf = false := by decide

theorem smoke_memory_accepts : Memory.wf [(3, 1), (5, 2)] = true := by decide
theorem smoke_memory_order : Memory.wf [(5, 1), (3, 2)] = false := by decide
theorem smoke_memory_repeat : Memory.wf [(3, 1), (3, 2)] = false := by decide
theorem smoke_memory_zero_entry : Memory.wf [(3, 0)] = false := by decide
theorem smoke_memory_write_zero : Memory.write [(3, 1)] 3 0 = [] := by decide
theorem smoke_memory_below : Memory.below 256 [(256, 1)] = false := by decide

/-! ## Decode: words written out from 30_encoding.md R70 and R76 -/

theorem decode_nop : decode Config.allRows 0b00000000 3 5 = .ok .nop := by rfl
theorem decode_hlt : decode Config.allRows 0b00000001 3 5 = .ok .hlt := by rfl
theorem decode_ret : decode Config.allRows 0b00010001 3 5 = .ok .ret := by rfl
theorem decode_iret : decode Config.allRows 0b00010011 3 5 = .ok .iret := by rfl
theorem decode_push : decode Config.allRows 0b01000101 3 5 = .ok (.push 3) := by rfl
theorem decode_pop : decode Config.allRows 0b01000110 3 5 = .ok (.pop 3) := by rfl
theorem decode_prn : decode Config.allRows 0b01000111 3 5 = .ok (.prn 3) := by rfl
theorem decode_call : decode Config.allRows 0b01010000 3 5 = .ok (.call 3 5) := by rfl
theorem decode_jmp : decode Config.allRows 0b01010100 3 5 = .ok (.jmp 3) := by rfl
theorem decode_jeq : decode Config.allRows 0b01010101 3 5 = .ok (.jeq 3) := by rfl
theorem decode_jne : decode Config.allRows 0b01010110 3 5 = .ok (.jne 3) := by rfl
theorem decode_ldi : decode Config.allRows 0b10000010 3 5 = .ok (.ldi 3 5) := by rfl
theorem decode_add : decode Config.allRows 0b10100000 3 5 = .ok (.add 3 5) := by rfl
theorem decode_sub : decode Config.allRows 0b10100001 3 5 = .ok (.sub 3 5) := by rfl
theorem decode_mul : decode Config.allRows 0b10100010 3 5 = .ok (.mul 3 5) := by rfl
theorem decode_div : decode Config.allRows 0b10100011 3 5 = .ok (.div 3 5) := by rfl
theorem decode_mod : decode Config.allRows 0b10100100 3 5 = .ok (.mod 3 5) := by rfl
theorem decode_cmp : decode Config.allRows 0b10100111 3 5 = .ok (.cmp 3 5) := by rfl
theorem decode_and : decode Config.allRows 0b10101000 3 5 = .ok (.and 3 5) := by rfl
theorem decode_not : decode Config.allRows 0b01101001 3 5 = .ok (.not 3) := by rfl
theorem decode_or : decode Config.allRows 0b10101010 3 5 = .ok (.or 3 5) := by rfl
theorem decode_xor : decode Config.allRows 0b10101011 3 5 = .ok (.xor 3 5) := by rfl
theorem decode_shl : decode Config.allRows 0b10101100 3 5 = .ok (.shl 3 5) := by rfl
theorem decode_shr : decode Config.allRows 0b10101101 3 5 = .ok (.shr 3 5) := by rfl

theorem decode_unknown : decode Config.allRows 0xFF 0 0 = .error (.unknownOpcode 0xFF) := by rfl
theorem decode_table_word : decodeTableWord 24 0x0501A0 = some (.add 1 5) := by decide
theorem decode_table_word_short : decodeTableWord 8 0x0501A0 = some (.add 0 0) := by decide
theorem encode_call : encode Config.default (.call 1 9) = [0x50, 0x01, 0x09] := by decide
theorem listing_call : listing (.call 1 9) = "CALL r1, 9" := by decide

/-! ## ALU (95_test_vectors.md section 2.2) -/

-- A1b
theorem test_add_wraps : runOn 0xFF 0x01 [0xA0, 0x00, 0x01] = some (0x00, 3, .running) := by decide
-- A1c
theorem test_add : runOn 0xC8 0x64 [0xA0, 0x00, 0x01] = some (0x2C, 3, .running) := by decide
-- A2b
theorem test_sub_wraps : runOn 0x03 0x05 [0xA1, 0x00, 0x01] = some (0xFE, 3, .running) := by decide
-- A3c
theorem test_mul_low_byte : runOn 0xFF 0xFF [0xA2, 0x00, 0x01] = some (0x01, 3, .running) := by decide
-- A4e
theorem test_div_truncates : runOn 0xC8 0x07 [0xA3, 0x00, 0x01] = some (0x1C, 3, .running) := by decide
-- A5e
theorem test_mod : runOn 0xC8 0x07 [0xA4, 0x00, 0x01] = some (0x04, 3, .running) := by decide
-- X1
theorem test_and : runOn 0xF0 0x3C [0xA8, 0x00, 0x01] = some (0x30, 3, .running) := by decide
-- X2
theorem test_or : runOn 0xF0 0x0F [0xAA, 0x00, 0x01] = some (0xFF, 3, .running) := by decide
-- X3
theorem test_xor : runOn 0xFF 0x0F [0xAB, 0x00, 0x01] = some (0xF0, 3, .running) := by decide
-- X4c, X7b
theorem test_not_ignores_b : runOn 0x5A 0x00 [0x69, 0x00, 0xFF] = some (0xA5, 2, .running) := by decide
-- X5d
theorem test_shl_amount_modulo_8 : runOn 0xFF 0x09 [0xAC, 0x00, 0x01] = some (0xFE, 3, .running) := by decide
-- X6c
theorem test_shr_zero_fill : runOn 0xFF 0x04 [0xAD, 0x00, 0x01] = some (0x0F, 3, .running) := by decide
-- X6b
theorem test_shr_amount_modulo_8 : runOn 0x80 0x08 [0xAD, 0x00, 0x01] = some (0x80, 3, .running) := by decide
-- A7
theorem test_div_by_zero : runOn 7 0 [0xA3, 0x00, 0x01] = some (7, 0, .faulted .divideByZero) := by decide
-- A7b
theorem test_mod_by_zero : runOn 7 0 [0xA4, 0x00, 0x01] = some (7, 0, .faulted .divideByZero) := by decide
-- A10
theorem test_sub_writes_sp :
    (after (step (start (regs 0 0x10 0xF4) 0 0 [0xA1, 0x07, 0x01]))).map State.sp = some 0xE4 := by decide
-- A9
theorem test_sub_keeps_flags :
    (after (step (start (regs 1 1 0xF4) 0 1 [0xA1, 0x00, 0x01]))).map State.fl = some 1 := by decide

/-! ## Compare and branch (section 2.3) -/

-- B1
theorem test_cmp_less :
    (after (step (start (regs 3 5 0xF4) 0 0 [0xA7, 0x00, 0x01]))).map State.fl = some 0x04 := by decide
-- B5, with an old flag overwritten as in B8
theorem test_cmp_greater_unsigned :
    (after (step (start (regs 0xFF 1 0xF4) 0 4 [0xA7, 0x00, 0x01]))).map State.fl = some 0x02 := by decide
-- B10
theorem test_jmp :
    (after (step (start #v[0, 0, 0x10, 0, 0, 0, 0, 0xF4] 0 0 [0x54, 0x02]))).map State.pc = some 0x10 := by decide
-- B13
theorem test_jeq_taken :
    (after (step (start #v[0, 0, 0, 0x20, 0, 0, 0, 0xF4] 8 1 [0x55, 0x03]))).map State.pc = some 0x20 := by decide
-- B14
theorem test_jeq_falls_through :
    (after (step (start #v[0, 0, 0, 0x20, 0, 0, 0, 0xF4] 8 2 [0x55, 0x03]))).map State.pc = some 10 := by decide
-- B17
theorem test_jne_falls_through :
    (after (step (start #v[0, 0, 0, 0x20, 0, 0, 0, 0xF4] 8 1 [0x56, 0x03]))).map State.pc = some 10 := by decide
-- B20
theorem test_jne_taken_at_reset :
    (after (step (start #v[0, 0, 0, 0x20, 0, 0, 0, 0xF4] 8 0 [0x56, 0x03]))).map State.pc = some 0x20 := by decide
-- E10
theorem test_jeq_checks_register_when_not_taken :
    runOn 0 0 [0x55, 0x09] = some (0, 0, .faulted (.outOfRangeAccess .register 9)) := by decide

/-! ## Stack and call (section 2.4) -/

-- S1
theorem test_push :
    stackAfter (start (regs 0x42 0 0xF4) 0 0 [0x45, 0x00]) = some (0xF3, 0x42, 2, .running) := by decide
-- S7
theorem test_push_sp_stores_decremented :
    stackAfter (start (regs 0 0 0xF4) 0 0 [0x45, 0x07]) = some (0xF3, 0xF3, 2, .running) := by decide
-- S4
theorem test_pop :
    (after (step { start (regs 0 0 0xF3) 0 0 [0x46, 0x01] with
      mem := [(0, 0x46), (1, 0x01), (0xF3, 0x42)] })).map (fun t => (t.reg 1, t.sp, t.mem.read 0xF3, t.pc)) =
      some (0x42, 0xF4, 0x42, 2) := by decide
-- S8
theorem test_pop_sp :
    (after (step { start (regs 0 0 0xF3) 0 0 [0x46, 0x07] with
      mem := [(0, 0x46), (1, 0x07), (0xF3, 0xFF)] })).map State.sp = some 0x00 := by decide
-- S12
theorem test_call :
    stackAfter (start (regs 0 12 0xF4) 6 0 [0x50, 0x01, 0x09]) = some (0xF3, 0x09, 12, .running) := by decide
-- S14
theorem test_call_sp_reads_after_push :
    stackAfter (start (regs 0 0 0xF4) 0 0 [0x50, 0x07, 0x03]) = some (0xF3, 0x03, 0xF3, .running) := by decide
-- S16
theorem test_ret :
    stackAfter { start (regs 0 0 0xF3) 15 0 [] with mem := [(15, 0x11), (0xF3, 0x09)] } =
      some (0xF4, 0x09, 9, .running) := by decide
-- S17
theorem test_ret_underflow :
    stackAfter (start (regs 0 0 0xF4) 0 0 [0x11]) = some (0xF4, 0, 0, .faulted .stackUnderflow) := by decide
-- S5
theorem test_push_overflow :
    stackAfter (start (regs 0 0 0x00) 0 0 [0x45, 0x00]) = some (0x00, 0, 0, .faulted .stackOverflow) := by decide
-- 43_stack_call.md R150, MEM_SIZE below 256
theorem test_push_outside_small_memory :
    (after (exec (.push 0) { State.resetWith smallConfig with x := regs 0 0 0xF4 })).map State.run =
      some (.faulted (.outOfRangeAccess .memory 0xF3)) := by decide

/-! ## Control and output (section 2.5) -/

-- K1
theorem test_nop : (after (step (start (regs 0 0 0xF4) 4 0 [0x00]))).map State.pc = some 5 := by decide
-- K2
theorem test_hlt :
    (after (step (start (regs 0 0 0xF4) 5 0 [0x01]))).map (fun t => (t.run, t.pc)) = some (.halted, 6) := by decide
-- K3
theorem test_iret_keeps_stack :
    stackAfter { start (regs 0 0 0xF3) 0 0 [] with mem := [(0, 0x13), (0xF3, 0x33)] } =
      some (0xF3, 0x33, 1, .halted) := by decide
-- K4
theorem test_ldi_sp :
    (after (step (start (regs 0 0 0xF4) 0 0 [0x82, 0x07, 0x80]))).map State.sp = some 0x80 := by decide
-- K7
theorem test_prn_appends :
    (after (step { start (regs 3 0 0xF4) 0 0 [0x47, 0x00] with out := [1, 2] })).map State.out =
      some [1, 2, 3] := by decide
-- K8
theorem test_prn_bad_register :
    runOn 0 0 [0x47, 0x08] = some (0, 0, .faulted (.outOfRangeAccess .register 8)) := by decide

/-! ## Engine (section 2.1) and boot -/

-- E1
theorem test_fetch_last_address :
    (after (step (start (regs 0 0 0xF4) 253 0 [0x01]))).map (fun t => (t.run, t.pc)) = some (.halted, 254) := by
  decide
-- E5
theorem test_fetch_before_decode :
    (after (step (start (regs 0 0 0xF4) 254 0 [0xFF]))).map (fun t => (t.run, t.pc)) =
      some (.faulted (.outOfRangeAccess .memory 256), 254) := by decide
-- E4
theorem test_pc_does_not_wrap :
    (after (step (start (regs 0 0 0xF4) 253 0 [0x82, 0x00, 0x05]))).map State.pc = some 256 := by decide
-- E13
theorem test_register_a_before_b :
    runOn 0 0 [0xA0, 0x09, 0xFF] = some (0, 0, .faulted (.outOfRangeAccess .register 9)) := by decide
-- V2
theorem test_unknown_opcode :
    runOn 0 0 [0xFF] = some (0, 0, .faulted (.unknownOpcode 0xFF)) := by decide
-- E7
theorem test_shl_disabled :
    after (step { State.reset with mem := [(0, 0xAC), (2, 1)] }) =
      some { State.reset with mem := [(0, 0xAC), (2, 1)], run := .faulted (.unknownOpcode 0xAC) } := by decide
-- E18
theorem test_halted_has_no_step : step { State.reset with run := .halted } = .fault .engineHalted := by rfl
-- 10_state.md R35: a push over its own operand byte stores by the latched one
theorem test_push_over_itself :
    (after (step (start (regs 0x42 0 0x02) 0 0 [0x45, 0x00]))).map (fun t => t.mem.read 1) = some 0x42 := by decide
-- 70_reset_and_hazards.md R203, R204
theorem test_boot : (after (boot Config.default [0x82, 0, 9])).map State.mem = some [(0, 0x82), (2, 9)] := by decide
theorem test_boot_refuses : boot Config.default [256] = .refused .imageValueOutOfRange := by rfl
-- the row of an optional instruction runs from reset
theorem test_with_fetch_word :
    (after (step (State.reset.withFetchWord 24 0x0100AC))).map (fun t => (t.pc, t.run)) = some (3, .running) := by decide

/-! ## Witnesses: states and operands that meet the hypotheses of the statements -/

/-- Reset in the default configuration with these bytes at 0. -/
def prog (bytes : List Byte) : State := { State.reset with mem := Memory.load [] 0 bytes }

/-- Reset with another stack pointer. -/
def withSp (c : Config) (sp : Byte) : State := { State.resetWith c with x := regs 0 0 sp }

theorem witness_DecodeOfEncode : Config.default.wf = true ∧ Config.default.enabled (Instr.add 255 7).mnemonic = true ∧
    encode Config.default (.add 255 7) ++ [] = 0xA0 :: 255 :: 7 :: [] := by decide
theorem witness_DecodeOfEncode_padded : Config.default.wf = true ∧ Config.default.enabled Instr.nop.mnemonic = true ∧
    encode Config.default .nop ++ [1, 2, 3] = 0x00 :: 1 :: 2 :: [3] := by decide
theorem witness_EncodeOfDecode : decode Config.default 0x82 0 9 = .ok (.ldi 0 9) := by rfl
theorem witness_DecodeIsTableLookup : Config.allRows.wf = true := by decide
theorem witness_BitwiseGroupNeedsTheOption_off : Config.default.extBitwise = false ∧ (prog [0xA8]).cfg = Config.default ∧
    (prog [0xA8]).run = .running ∧ (prog [0xA8]).pc + 2 < Config.default.memSize ∧
    (prog [0xA8]).mem.read (prog [0xA8]).pc = Config.default.opMap.code .and ∧
    ∀ n ∈ Mnemonic.all, Config.default.enabled n = true → Config.default.opMap.code n ≠ Config.default.opMap.code .and := by
  decide
theorem witness_BitwiseGroupNeedsTheOption_on : Config.allRows.extBitwise = true ∧ Config.allRows.wf = true := by decide
theorem witness_UnusedOperandBytesAreIgnored : decode Config.default 0x00 9 9 = .ok .nop ∧ Instr.nop.mnemonic.arity = 0 ∧
    decode Config.default 0x45 9 9 = .ok (.push 9) ∧ (Instr.push 9).mnemonic.arity = 1 := ⟨rfl, rfl, rfl, rfl⟩
theorem witness_FetchFaultsOnFirstBadAddress : State.reset.run = .running ∧ State.reset.cfg.memSize = 256 ∧
    (State.reset.cfg.memSize ≤ 256 ∧ (255 < State.reset.cfg.memSize ∧ State.reset.cfg.memSize ≤ 255 + 1) ∧
      254 + 1 < State.reset.cfg.memSize ∧ State.reset.cfg.memSize ≤ 254 + 2) := by decide
theorem witness_UnknownOpcodeFaults : (prog [0xFF]).run = .running ∧ (prog [0xFF]).pc + 2 < (prog [0xFF]).cfg.memSize ∧
    (prog [0xFF]).cfg.lookup ((prog [0xFF]).mem.read (prog [0xFF]).pc) = none := by decide
theorem witness_RegisterOperandsAreCheckedFirst : 8 ≤ (8#8).toNat ∧ (7#8).toNat < 8 ∧
    (∀ r ∈ (Instr.ldi 7 255).registerOperands, r.toNat < 8) ∧ State.reset.run = .running := by decide
theorem witness_RegisterOperandsAreCheckedFirst_next : ∃ t, exec (.ldi 7 255) State.reset = .next t := ⟨_, rfl⟩
theorem witness_StepRunsTheDecodedInstruction : State.reset.run = .running ∧ State.reset.pc + 2 < State.reset.cfg.memSize ∧
    decode State.reset.cfg (State.reset.mem.read 0) (State.reset.mem.read 1) (State.reset.mem.read 2) = .ok .nop :=
  ⟨rfl, by decide, rfl⟩
theorem witness_EngineAdvancesUnlessHandlerSetPc_jumps :
    (∃ t, exec (.jmp 3) State.reset = .next t ∧ ∀ f, t.run ≠ .faulted f) ∧
    (∃ t, exec (.jeq 3) { State.reset with fl := 1 } = .next t ∧ ∀ f, t.run ≠ .faulted f) ∧
    (∃ t, exec (.jne 3) State.reset = .next t ∧ ∀ f, t.run ≠ .faulted f) :=
  ⟨⟨_, rfl, nofun⟩, ⟨_, rfl, nofun⟩, ⟨_, rfl, nofun⟩⟩
theorem witness_EngineAdvancesUnlessHandlerSetPc_others :
    (∃ t, exec (.call 3 9) State.reset = .next t ∧ ∀ f, t.run ≠ .faulted f) ∧
    (∃ t, exec .ret (withSp Config.default 0xF3) = .next t ∧ ∀ f, t.run ≠ .faulted f) ∧
    (∃ t, exec (.jeq 3) State.reset = .next t ∧ ∀ f, t.run ≠ .faulted f) ∧
    (∃ t, exec .hlt State.reset = .next t ∧ ∀ f, t.run ≠ .faulted f) :=
  ⟨⟨_, rfl, nofun⟩, ⟨_, rfl, nofun⟩, ⟨_, rfl, nofun⟩, ⟨_, rfl, nofun⟩⟩
theorem witness_FaultDiscardsTheStep :
    ∃ t, step (prog [0xFF]) = .next t ∧ t.run = .faulted (.unknownOpcode 0xFF) := ⟨_, rfl, rfl⟩
theorem witness_FirstFaultByPriority : (prog [0x11]).cfg.wf = true ∧ (prog [0x11]).run = .running ∧
    firstFault (prog [0x11]) = some .stackUnderflow ∧ firstFault (prog [0x00]) = none := by decide
theorem witness_UnsupportedOperationIsNeverRaised : ∃ t, step State.reset = .next t := ⟨_, rfl⟩
theorem witness_OnlyHltAndIretHalt : (∃ t, step (prog [0x01]) = .next t ∧ t.run = .halted) ∧
    (∃ t, step (prog [0x13]) = .next t ∧ t.run = .halted) := ⟨⟨_, rfl, rfl⟩, ⟨_, rfl, rfl⟩⟩
theorem witness_OnlyHltAndIretHalt_reaches : ({ State.reset with run := .halted } : State).run = .halted ∧
    Reaches { State.reset with run := .halted } { State.reset with run := .halted } := ⟨rfl, .start _⟩
theorem witness_TerminalStatesNeverChange : (State.reset.takeFault .stackOverflow).run ≠ .running ∧
    Reaches (State.reset.takeFault .stackOverflow) (State.reset.takeFault .stackOverflow) := ⟨nofun, .start _⟩
theorem witness_BootLoadsTheImage : Config.default.wf = true ∧ (List.replicate 256 255).length ≤ Config.default.memSize ∧
    ∀ v ∈ List.replicate 256 255, v ≤ 255 := ⟨by decide, by rw [List.length_replicate]; decide, fun v hv => by rw [List.eq_of_mem_replicate hv]⟩
theorem witness_BootRefusesBadImages : Config.default.memSize < (List.replicate 257 0).length ∧ ∃ v ∈ [256], 255 < v :=
  ⟨by rw [List.length_replicate]; decide, 256, List.mem_singleton_self 256, by decide⟩
theorem witness_RegisterWriteIsMasked : (6 : Fin 8) ≠ 7 := by decide
theorem witness_MemWriteSetsOneCell : 255 < State.reset.cfg.memSize ∧ State.reset.mem.wf = true ∧
    ∃ t, State.reset.memWrite 255 1 = .ok t := ⟨by decide, rfl, _, rfl⟩
theorem witness_OutOfRangeAccessFaults : State.reset.cfg.memSize ≤ 256 ∧ 255 < State.reset.cfg.memSize := by decide
theorem witness_FetchSeesTheLatestWrite : State.reset.mem.wf = true ∧ (∃ t, State.reset.memWrite 255 1 = .ok t) ∧
    253 + 2 < State.reset.cfg.memSize := ⟨rfl, ⟨_, rfl⟩, by decide⟩
theorem witness_DivModTruncateOrFault : State.reset.x[7] ≠ 0 ∧ State.reset.x[0] = 0 := by decide
theorem witness_AluResultGoesToFirstOperand : Mnemonic.div ∈ aluMnemonics ∧ aluApply .div 7 2 = .ok 3 ∧
    aluApply .div 7 0 = .error .divideByZero := ⟨by decide, rfl, rfl⟩
theorem witness_OperandsAreReadBeforeTheWrite : State.reset.x[7] ≠ 0 := by decide
theorem witness_OnlyCmpWritesFlags : (∃ t, step (prog [0xA7, 0, 7]) = .next t ∧ t.run = .running) ∧
    (prog [0xA7, 0, 7]).nextInstr = .ok (.cmp 0 7) := ⟨⟨_, rfl, rfl⟩, rfl⟩
theorem witness_OnlyCmpWritesFlags_other : (∃ t, step State.reset = .next t) ∧
    ¬ ∃ a b, State.reset.nextInstr = .ok (.cmp a b) :=
  ⟨⟨_, rfl⟩, fun h => by
    obtain ⟨a, b, h⟩ := h
    have hn : State.reset.nextInstr = .ok .nop := rfl
    rw [hn] at h
    cases h⟩
theorem witness_OnlyTheEqualBitIsRead : (Instr.jeq 0).mnemonic ≠ .cmp ∧ (0x06#8).getLsbD 0 = State.reset.fl.getLsbD 0 ∧
    ∃ t, exec (.jeq 0) State.reset = .next t := ⟨by decide, by decide, _, rfl⟩
theorem witness_PushStoresBelowTheStack : (withSp Config.default 0).x[7].toNat = 0 ∧
    ((withSp smallConfig 0x81).x[7].toNat ≠ 0 ∧ smallConfig.memSize ≤ (withSp smallConfig 0x81).x[7].toNat - 1) ∧
    ((withSp smallConfig 0x80).x[7].toNat ≠ 0 ∧ (withSp smallConfig 0x80).x[7].toNat - 1 < smallConfig.memSize) := by
  decide
theorem witness_CallPushesItsLiteral : (withSp Config.default 0).x[7].toNat = 0 ∧
    ((withSp smallConfig 0x81).x[7].toNat ≠ 0 ∧ smallConfig.memSize ≤ (withSp smallConfig 0x81).x[7].toNat - 1) ∧
    ((withSp Config.default 1).x[7].toNat ≠ 0 ∧ (withSp Config.default 1).x[7].toNat - 1 < Config.default.memSize) := by
  decide
theorem witness_PopLoadsTheTop : Config.default.wf = true ∧ Config.default.spInit.toNat ≤ State.reset.x[7].toNat ∧
    (withSp Config.default 0xF3).x[7].toNat < Config.default.spInit.toNat ∧ (0 : Fin 8) ≠ 7 := by decide
theorem witness_RetPopsIntoPc : Config.default.wf = true ∧ Config.default.spInit.toNat ≤ State.reset.x[7].toNat ∧
    (withSp Config.default 0xF3).x[7].toNat < Config.default.spInit.toNat := by decide
theorem witness_PushThenPopRoundTrip : Config.default.wf = true ∧ State.reset.mem.wf = true ∧
    (1 ≤ State.reset.x[7].toNat ∧ State.reset.x[7].toNat ≤ State.reset.cfg.spInit.toNat) ∧
    (1 ≤ (withSp Config.default 1).x[7].toNat ∧
      (withSp Config.default 1).x[7].toNat ≤ (withSp Config.default 1).cfg.spInit.toNat) := by decide
theorem witness_CallThenRetReturns : ∃ t, exec (.call 7 3) State.reset = .next t ∧ t.cfg = State.reset.cfg ∧
    Config.default.wf = true ∧ State.reset.mem.wf = true ∧ 1 ≤ State.reset.x[7].toNat ∧
    State.reset.x[7].toNat ≤ State.reset.cfg.spInit.toNat := ⟨_, rfl, rfl, by decide⟩
theorem witness_OnlyTheseAccessesReachMemory : (∃ t, exec (.prn 0) State.reset = .next t) ∧
    (State.reset.mem.wf = true ∧ ∃ t, exec (.push 0) State.reset = .next t) ∧
    (∃ t, exec .ret (withSp Config.default 0xF3) = .next t) :=
  ⟨⟨_, rfl⟩, ⟨rfl, _, rfl⟩, ⟨_, rfl⟩⟩
theorem witness_HltHaltsAndAdvances : Config.default.wf = true ∧ ∃ t, exec .hlt State.reset = .next t :=
  ⟨by decide, _, rfl⟩
theorem witness_LdiLoadsTheLiteral : Config.default.wf = true ∧ 8 ≤ (8#8).toNat := by decide
theorem witness_PrnEmitsTheRegister : Config.default.wf = true ∧ 8 ≤ (255#8).toNat := by decide
theorem witness_OutputOnlyGrowsByPrn : ∃ t, step (prog [0x47, 7]) = .next t ∧ t.out = [0xF4] := ⟨_, rfl, rfl⟩
theorem witness_RegisterResultFrame : Instr.mnemonic (.add 0 7) ∈ [Mnemonic.add] ∧
    ∃ t, exec (.add 0 7) State.reset = .next t := ⟨by decide, _, rfl⟩
theorem witness_StoringFrame : State.reset.mem.wf = true ∧ (∃ t, exec (.call 0 9) State.reset = .next t) ∧
    (∃ slot, State.reset.openSlot = .ok slot) ∧ ∀ slot, (withSp Config.default 0).openSlot ≠ .ok slot :=
  ⟨rfl, ⟨_, rfl⟩, ⟨_, rfl⟩, nofun⟩
theorem witness_PoppingFrame : ∃ t, exec (.pop 0) (withSp Config.default 0xF3) = .next t := ⟨_, rfl⟩
theorem witness_NoRegisterFrame : ∃ t, exec (.cmp 0 7) State.reset = .next t := ⟨_, rfl⟩
theorem witness_ResetMeetsTheInvariant : ∃ s, boot Config.default [0x82, 0, 9] = .next s := ⟨_, rfl⟩
theorem witness_StepKeepsTheInvariant : State.reset.Inv ∧ ∃ t, step State.reset = .next t :=
  ⟨⟨by decide, rfl, rfl, by decide, .inl rfl⟩, _, rfl⟩
theorem witness_BootedRunsKeepTheInvariant :
    ∃ s t, boot Config.default [0x82, 0, 9] = .next s ∧ step s = .next t ∧ Reaches s t :=
  ⟨_, _, rfl, rfl, .next (.start _) rfl⟩
theorem witness_StepKeepsTheConfiguration : ∃ t, step State.reset = .next t := ⟨_, rfl⟩

end Sys2Proof.Tests
end

section
/-! PROOFS. The optional group of 00_scope.md R8: lookup under the conditions of 30_encoding.md R77 and
R78, and the step on a byte that is in no row of the table. -/

namespace Sys2Proof

theorem Mnemonic.isBitwise_of_mem :
    ∀ m ∈ [Mnemonic.and, .or, .xor, .not, .shl, .shr], m.isBitwise = true := by
  decide

/-- 00_scope.md R8: a bitwise mnemonic is in the decode table exactly with `EXT_BITWISE`. -/
theorem Config.enabled_of_isBitwise {m : Mnemonic} (hm : m.isBitwise = true) (c : Config) :
    c.enabled m = c.extBitwise := by
  simp [Config.enabled, hm]

/-- 30_encoding.md R77: in an admitted configuration an opcode byte belongs to one enabled mnemonic. -/
theorem Config.code_injOn_enabled {c : Config} (hc : c.wf = true) {m n : Mnemonic}
    (hm : c.enabled m = true) (hn : c.enabled n = true) (h : c.opMap.code m = c.opMap.code n) : m = n := by
  simp only [Config.wf, Config.opMapInjective, Bool.and_eq_true, decide_eq_true_eq] at hc
  obtain ⟨-, hnodup⟩ := hc
  exact List.inj_on_of_nodup_map hnodup (Config.mem_enabledMnemonics.mpr hm)
    (Config.mem_enabledMnemonics.mpr hn) h

/-- The byte of an enabled mnemonic looks up that mnemonic, since no other enabled one has the byte. -/
theorem Config.lookup_code {c : Config} (hc : c.wf = true) {m : Mnemonic} (hm : c.enabled m = true) :
    c.lookup (c.opMap.code m) = some m := by
  cases h : c.lookup (c.opMap.code m) with
  | none => exact absurd rfl (Config.lookup_none.mp h m hm)
  | some n =>
    obtain ⟨hn, hcode⟩ := Config.lookup_sound h
    rw [Config.code_injOn_enabled hc hn hm hcode]

theorem decode_code {c : Config} (hc : c.wf = true) {m : Mnemonic} (hm : c.enabled m = true) (a b : Byte) :
    decode c (c.opMap.code m) a b = .ok (m.toInstr a b) :=
  decode_of_lookup (Config.lookup_code hc hm) a b

end Sys2Proof

namespace Sys2Proof.Machine

/-- 40_engine.md R94: a byte in no row of the table, fetched in a running engine, faults with that byte
and changes nothing else. -/
theorem step_of_lookup_none {s : State} (hrun : s.run = .running) (hpc : s.pc + 2 < s.cfg.memSize)
    (hnone : s.cfg.lookup (s.mem.read s.pc) = none) :
    step s = .next (s.takeFault (.unknownOpcode (s.mem.read s.pc))) := by
  have hnext : s.nextInstr = .error (.unknownOpcode (s.mem.read s.pc)) := by
    rw [State.nextInstr, State.fetch_eq_ok.mpr ⟨hpc, rfl⟩, bind_ok_left, State.decodeLatch,
      decode_of_lookup_none hnone]
  exact step_of_error hrun hnext

/-- Settles O4: a bitwise mnemonic is enabled exactly with `EXT_BITWISE`; what the lookup answers is
enabled, and the byte of an enabled mnemonic looks it up. -/
theorem bitwiseGroupNeedsTheOption : Obligations.BitwiseGroupNeedsTheOption := by
  intro c
  constructor
  · intro hoff m hm
    have hdisabled : c.enabled m = false :=
      (Config.enabled_of_isBitwise (Mnemonic.isBitwise_of_mem m hm) c).trans hoff
    constructor
    · intro op hlookup
      obtain ⟨henabled, -⟩ := Config.lookup_sound hlookup
      simp [hdisabled] at henabled
    · rintro s rfl hrun hpc hop hother
      rw [← hop] at hother ⊢
      exact step_of_lookup_none hrun hpc (Config.lookup_none.mpr hother)
  · intro hon hc a b
    have hdecode : ∀ m : Mnemonic, m.isBitwise = true →
        decode c (c.opMap.code m) a b = .ok (m.toInstr a b) := fun m hm =>
      decode_code hc ((Config.enabled_of_isBitwise hm c).trans hon) a b
    exact ⟨hdecode .and rfl, hdecode .or rfl, hdecode .xor rfl, hdecode .not rfl, hdecode .shl rfl,
      hdecode .shr rfl⟩

end Sys2Proof.Machine
end

section
/-! PROOFS. 10_state.md: what `FL` and `OUT` hold after a step, that `OUT` is never read, that a stopped
engine stays as it is, the register write, and the reset values. -/

namespace Sys2Proof

theorem Instr.eq_cmp_of_mnemonic {i : Instr} (h : i.mnemonic = .cmp) : ∃ rA rB, i = .cmp rA rB := by
  cases i <;> cases h
  exact ⟨_, _, rfl⟩

theorem Instr.eq_prn_of_mnemonic {i : Instr} (h : i.mnemonic = .prn) : ∃ rA, i = .prn rA := by
  cases i <;> cases h
  exact ⟨_, rfl⟩

end Sys2Proof

namespace Sys2Proof.Machine

/-! ### The engine state (10_state.md R32) -/

/-- From a state that is not `Running` no step leads on, so it reaches itself alone. -/
theorem Reaches.eq_of_not_running {s t : State} (h : Reaches s t) (hs : s.run ≠ .running) : t = s := by
  induction h with
  | start => rfl
  | next _ stepped ih =>
    obtain ⟨hrun, -⟩ := step_next stepped
    exact absurd (ih ▸ hrun) hs

/-- Settles O19, by induction on the run: its last step would have begun in a terminal state. -/
theorem terminalStatesNeverChange : Obligations.TerminalStatesNeverChange := by
  refine ⟨fun c => ⟨rfl, rfl⟩, fun s t h => ?_, fun s hs t h => h.eq_of_not_running hs⟩
  obtain ⟨hrun, -⟩ := step_next h
  exact hrun

/-! ### Registers and reset (10_state.md R22, R26, R34) -/

/-- Settles O24: the two read-after-write laws of the registers, with the value masked. -/
theorem registerWriteIsMasked : Obligations.RegisterWriteIsMasked := by
  intro s r v
  refine ⟨?_, fun q hq => State.reg_setReg_other s _ hq, fun q => Nat.le_of_lt_succ s.x[q].isLt⟩
  have hread : (s.setReg r (mask8 v)).x[r] = BitVec.ofNat 8 v :=
    (State.reg_setReg_same s r _).trans (mask8_natCast v)
  rw [hread, BitVec.toNat_ofNat]

theorem State.resetWith_reg (c : Config) (r : Fin 8) :
    (State.resetWith c).reg r = if r = 7 then c.spInit else 0 := by
  fin_cases r <;> rfl

/-- Settles O21: the registers by `State.resetWith_reg`, the other fields by the definition of reset. -/
theorem resetState : Obligations.ResetState :=
  ⟨State.resetWith_reg, rfl, rfl, rfl, rfl, rfl, rfl, Memory.read_nil⟩

/-- 70_reset_and_hazards.md R203: a loaded cell reads as its byte of the image, and every other cell as
before. -/
theorem Memory.read_load {m : Memory} (hm : m.wf = true) (a : Nat) (bs : List Byte) (i : Nat) :
    (Memory.load m a bs).read i = if i < a then m.read i else bs[i - a]?.getD (m.read i) := by
  induction bs generalizing m a with
  | nil => simp [Memory.load]
  | cons b rest ih =>
    rw [Memory.load, ih (Memory.wf_write hm a b), Memory.read_write hm]
    rcases Nat.lt_trichotomy i a with hlt | rfl | hgt
    · rw [if_pos (by omega), if_neg (by omega), if_pos hlt]
    · simp
    · obtain ⟨k, rfl⟩ : ∃ k, i = a + 1 + k := ⟨i - (a + 1), by omega⟩
      have hk : a + 1 + k - a = k + 1 := by omega
      rw [if_neg (by omega), if_neg (by omega), if_neg (by omega), hk, Nat.add_sub_cancel_left,
        List.getElem?_cons_succ]

/-- After reset memory is the image from address 0 and 0 past its end. -/
theorem Memory.read_load_nil (bs : List Byte) (i : Nat) :
    (Memory.load [] 0 bs).read i = bs[i]?.getD 0 := by
  simp [Memory.read_load Memory.wf_nil]

theorem boot_of_admitted {c : Config} {image : List Nat} (hc : c.wf = true)
    (hlen : image.length ≤ c.memSize) (hval : ∀ v ∈ image, v ≤ 255) :
    boot c image =
      .next { State.resetWith c with mem := Memory.load [] 0 (image.map (BitVec.ofNat 8)) } := by
  simpa [boot, hc, Nat.not_lt.mpr hlen] using hval

/-- Settles O22: an admitted boot is the reset state with the loaded image, read by
`Memory.read_load_nil`. -/
theorem bootLoadsTheImage : Obligations.BootLoadsTheImage := by
  intro c image hc hlen hval
  refine ⟨_, boot_of_admitted hc hlen hval, fun i hi => ?_, fun i hi => ?_, rfl, rfl, rfl, rfl, rfl, rfl⟩
  · have hbyte : image[i] < 2 ^ 8 := Nat.lt_succ_of_le (hval _ (List.getElem_mem hi))
    simpa [Memory.read_load_nil, hi] using hbyte
  · simp [Memory.read_load_nil, hi]

/-! ### What a step does to `FL` and `OUT` (10_state.md R30, R33) -/

theorem aluInstr_keeps_fl_out {m : Mnemonic} {rA rB : Byte} {s t : State}
    (h : aluInstr m rA rB s = .next t) : t.fl = s.fl ∧ t.out = s.out := by
  rcases aluInstr_next h with ⟨f, rfl⟩ | ⟨a, b, v, -, -, -, rfl⟩ <;> exact ⟨rfl, rfl⟩

theorem branchIf_keeps_fl_out {m : Mnemonic} {taken : Bool} {rA : Byte} {s t : State}
    (h : branchIf m taken rA s = .next t) : t.fl = s.fl ∧ t.out = s.out := by
  rcases branchIf_next h with ⟨f, rfl⟩ | ⟨a, -, rfl⟩
  · exact ⟨rfl, rfl⟩
  · cases taken <;> exact ⟨rfl, rfl⟩

theorem State.openSlot_keeps_fl_out {s slot : State} (h : s.openSlot = .ok slot) :
    slot.fl = s.fl ∧ slot.out = s.out := by
  obtain ⟨-, rfl⟩ := State.openSlot_eq_ok.mp h
  exact ⟨rfl, rfl⟩

/-- An instruction other than CMP and PRN touches neither `FL` nor `OUT`. -/
theorem exec_keeps_fl_out {i : Instr} {s t : State} (hcmp : i.mnemonic ≠ .cmp) (hprn : i.mnemonic ≠ .prn)
    (h : exec i s = .next t) : t.fl = s.fl ∧ t.out = s.out := by
  cases i with
  | cmp => exact absurd rfl hcmp
  | prn => exact absurd rfl hprn
  | nop | hlt | iret => cases h; exact ⟨rfl, rfl⟩
  | ret => rcases execRet_next h with ⟨f, rfl⟩ | ⟨v, -, rfl⟩ <;> exact ⟨rfl, rfl⟩
  | pop => rcases execPop_next h with ⟨f, rfl⟩ | ⟨a, v, -, -, rfl⟩ <;> exact ⟨rfl, rfl⟩
  | ldi => rcases execLdi_next h with ⟨f, rfl⟩ | ⟨a, -, rfl⟩ <;> exact ⟨rfl, rfl⟩
  | push =>
    rcases execPush_next h with ⟨f, rfl⟩ | ⟨a, slot, -, hslot, -, rfl⟩
    · exact ⟨rfl, rfl⟩
    · obtain ⟨hfl, hout⟩ := State.openSlot_keeps_fl_out hslot
      exact ⟨hfl, hout⟩
  | call =>
    rcases execCall_next h with ⟨f, rfl⟩ | ⟨a, slot, -, hslot, -, rfl⟩
    · exact ⟨rfl, rfl⟩
    · obtain ⟨hfl, hout⟩ := State.openSlot_keeps_fl_out hslot
      exact ⟨hfl, hout⟩
  | jmp | jeq | jne => exact branchIf_keeps_fl_out h
  | add | sub | mul | div | mod | and | or | xor | shl | shr => exact aluInstr_keeps_fl_out h
  | not => rcases aluInstrOne_next h with ⟨f, rfl⟩ | ⟨a, v, -, -, rfl⟩ <;> exact ⟨rfl, rfl⟩

/-- Every instruction but CMP carries `FL` along. -/
theorem exec_keeps_fl {i : Instr} {s t : State} (hcmp : i.mnemonic ≠ .cmp) (h : exec i s = .next t) :
    t.fl = s.fl := by
  by_cases hprn : i.mnemonic = .prn
  · obtain ⟨rA, rfl⟩ := Instr.eq_prn_of_mnemonic hprn
    rcases execPrn_next h with ⟨f, rfl⟩ | ⟨a, -, rfl⟩ <;> rfl
  · obtain ⟨hfl, -⟩ := exec_keeps_fl_out hcmp hprn h
    exact hfl

/-- An instruction keeps `OUT`, or is a PRN that appends the byte of its register. -/
theorem exec_out {i : Instr} {s t : State} (h : exec i s = .next t) :
    t.out = s.out ∨ ∃ r : Fin 8, i = .prn (registerByte r) ∧ t.out = s.out ++ [s.reg r] := by
  by_cases hprn : i.mnemonic = .prn
  · obtain ⟨rA, rfl⟩ := Instr.eq_prn_of_mnemonic hprn
    rcases execPrn_next h with ⟨f, rfl⟩ | ⟨r, rfl, rfl⟩
    · exact .inl rfl
    · exact .inr ⟨r, rfl, rfl⟩
  · left
    by_cases hcmp : i.mnemonic = .cmp
    · obtain ⟨rA, rB, rfl⟩ := Instr.eq_cmp_of_mnemonic hcmp
      rcases execCmp_next h with ⟨f, rfl⟩ | ⟨a, b, -, -, rfl⟩ <;> rfl
    · obtain ⟨-, hout⟩ := exec_keeps_fl_out hcmp hprn h
      exact hout

/-- 42_compare_branch.md R141: what CMP writes is one of the three flags alone. -/
theorem compareFlags_oneHot (a b : Byte) :
    compareFlags a b = flagE ∨ compareFlags a b = flagG ∨ compareFlags a b = flagL := by
  unfold compareFlags
  split_ifs <;> simp

/-- Settles O35: a step that is not a CMP takes a fault or is `exec_keeps_fl`; a CMP that ends running
wrote `compareFlags`. -/
theorem onlyCmpWritesFlags : Obligations.OnlyCmpWritesFlags := by
  constructor
  · intro s t h hnot
    obtain ⟨-, ⟨f, -, rfl⟩ | ⟨i, hi, hexec⟩⟩ := step_next h
    · rfl
    · refine exec_keeps_fl (fun hcmp => hnot ?_) hexec
      obtain ⟨a, b, rfl⟩ := Instr.eq_cmp_of_mnemonic hcmp
      exact ⟨a, b, hi⟩
  · intro s t a b hi h hrun
    obtain ⟨hs, -⟩ := step_next h
    rw [step_of_running hs hi] at h
    rcases execCmp_next h with ⟨f, rfl⟩ | ⟨ra, rb, -, -, rfl⟩
    · cases hrun
    · exact compareFlags_oneHot _ _

/-! ### `OUT` is never read (10_state.md R33)

The step from a state is the step from the same state with nothing emitted, and the bytes emitted before
stay in front of what the step emits. -/

/-- The state in which the bytes `o` were emitted before those of `s`. -/
def State.afterOutput (o : List Byte) (s : State) : State :=
  { s with out := o ++ s.out }

/-- An outcome with `o` emitted before it. -/
def outcomeAfterOutput (o : List Byte) : Host.Outcome State Fault Refusal → Host.Outcome State Fault Refusal
  | .next t => .next (t.afterOutput o)
  | .fault r => .fault r
  | .refused r => .refused r

section

variable (o : List Byte) (s : State)

@[simp] theorem State.afterOutput_reg (r : Fin 8) : (s.afterOutput o).reg r = s.reg r := rfl
@[simp] theorem State.afterOutput_sp : (s.afterOutput o).sp = s.sp := rfl
@[simp] theorem State.afterOutput_setReg (r : Fin 8) (v : Byte) :
    (s.afterOutput o).setReg r v = (s.setReg r v).afterOutput o := rfl
@[simp] theorem State.afterOutput_setFlags (v : Byte) :
    (s.afterOutput o).setFlags v = (s.setFlags v).afterOutput o := rfl
@[simp] theorem State.afterOutput_jump (v : Byte) : (s.afterOutput o).jump v = (s.jump v).afterOutput o := rfl
@[simp] theorem State.afterOutput_advance (m : Mnemonic) :
    (s.afterOutput o).advance m = (s.advance m).afterOutput o := rfl
@[simp] theorem State.afterOutput_closeSlot : (s.afterOutput o).closeSlot = s.closeSlot.afterOutput o := rfl
@[simp] theorem State.afterOutput_stackTop : (s.afterOutput o).stackTop = s.stackTop := rfl
@[simp] theorem State.afterOutput_nextInstr : (s.afterOutput o).nextInstr = s.nextInstr := rfl

@[simp] theorem State.afterOutput_emit (v : Byte) :
    (s.afterOutput o).emit v = (s.emit v).afterOutput o := by
  simp [State.emit, State.afterOutput]

@[simp] theorem State.afterOutput_openSlot :
    (s.afterOutput o).openSlot = State.afterOutput o <$> s.openSlot := by
  unfold State.openSlot
  rw [State.afterOutput_sp]
  split_ifs <;> rfl

@[simp] theorem State.afterOutput_memWrite (a : Nat) (v : Byte) :
    (s.afterOutput o).memWrite a v = State.afterOutput o <$> s.memWrite a v := by
  by_cases h : a < s.cfg.memSize
  · rw [State.memWrite_of_lt h, State.memWrite_of_lt (s := s.afterOutput o) h]
    rfl
  · rw [State.memWrite_of_ge (Nat.not_lt.mp h), State.memWrite_of_ge (s := s.afterOutput o) (Nat.not_lt.mp h)]
    rfl

/-- A handler whose result is the old one with `o` emitted before ends its step so too, faulting or not. -/
theorem finish_afterOutput (r : Except FaultCause State) :
    finish (s.afterOutput o) (State.afterOutput o <$> r) = outcomeAfterOutput o (finish s r) := by
  cases r <;> rfl

theorem aluInstr_afterOutput (m : Mnemonic) (rA rB : Byte) :
    aluInstr m rA rB (s.afterOutput o) = outcomeAfterOutput o (aluInstr m rA rB s) := by
  simp [aluInstr, ← finish_afterOutput]

theorem aluInstrOne_afterOutput (m : Mnemonic) (rA : Byte) :
    aluInstrOne m rA (s.afterOutput o) = outcomeAfterOutput o (aluInstrOne m rA s) := by
  simp [aluInstrOne, ← finish_afterOutput]

theorem branchIf_afterOutput (m : Mnemonic) (taken : Bool) (rA : Byte) :
    branchIf m taken rA (s.afterOutput o) = outcomeAfterOutput o (branchIf m taken rA s) := by
  cases taken <;> simp [branchIf, ← finish_afterOutput]

/-- Every meaning carries the bytes emitted before it along, and depends on none of them. -/
theorem exec_afterOutput (i : Instr) :
    exec i (s.afterOutput o) = outcomeAfterOutput o (exec i s) := by
  cases i with
  | nop | hlt | iret => rfl
  | ret => simp [exec, execRet, ← finish_afterOutput]
  | push => simp [exec, execPush, ← finish_afterOutput]
  | pop => simp [exec, execPop, ← finish_afterOutput]
  | call => simp [exec, execCall, ← finish_afterOutput]
  | ldi => simp [exec, execLdi, ← finish_afterOutput]
  | prn => simp [exec, execPrn, ← finish_afterOutput]
  | cmp => simp [exec, execCmp, ← finish_afterOutput]
  | jmp | jeq | jne => exact branchIf_afterOutput o s _ _ _
  | add | sub | mul | div | mod | and | or | xor | shl | shr => exact aluInstr_afterOutput o s _ _ _
  | not => exact aluInstrOne_afterOutput o s _ _

theorem step_afterOutput : step (s.afterOutput o) = outcomeAfterOutput o (step s) := by
  have hrun : (s.afterOutput o).run = s.run := rfl
  unfold step
  rw [hrun, State.afterOutput_nextInstr]
  cases s.run with
  | halted | faulted => rfl
  | running =>
    cases s.nextInstr with
    | error f => rfl
    | ok i => exact exec_afterOutput o s i

theorem outcomeAfterOutput_eq_next {o : List Byte} {r : Host.Outcome State Fault Refusal} {t : State} :
    outcomeAfterOutput o r = .next t ↔ ∃ t₀, r = .next t₀ ∧ t = t₀.afterOutput o := by
  cases r <;> simp [outcomeAfterOutput, eq_comm]

/-- A state with any `OUT` steps as it does with nothing emitted, and keeps that `OUT` in front. -/
theorem step_withOut : step { s with out := o } = outcomeAfterOutput o (step { s with out := [] }) := by
  rw [← step_afterOutput]
  simp [State.afterOutput]

end

/-- Settles O50: `exec_out` for the growth, and for independence the step with nothing emitted, whose own
output is what any other `OUT` is extended by. -/
theorem outputOnlyGrowsByPrn : Obligations.OutputOnlyGrowsByPrn := by
  refine ⟨fun c => rfl, fun s t h => ?_, fun s t o h => ?_⟩
  · obtain ⟨-, ⟨f, -, rfl⟩ | ⟨i, hi, hexec⟩⟩ := step_next h
    · exact .inl rfl
    · refine (exec_out hexec).imp_right ?_
      rintro ⟨r, rfl, hout⟩
      exact ⟨registerByte r, s.reg r, hi, by simp [State.reg], hout⟩
  · obtain ⟨t₀, ht₀, rfl⟩ := outcomeAfterOutput_eq_next.mp ((step_withOut s.out s).symm.trans h)
    refine ⟨t₀.out, rfl, ?_⟩
    rw [step_withOut, ht₀]
    rfl

end Sys2Proof.Machine
end

section
/-! PROOFS. 20_memory.md: a write sets one cell, and which cells fetch and each instruction can reach.
That a cell is not read is said by replacing memory: the meaning answers the same with another memory
in its place. -/

namespace Sys2Proof

theorem Instr.eq_push_or_call_of_mnemonic {i : Instr} (h : i.mnemonic ∈ [Mnemonic.push, .call]) :
    (∃ rA, i = .push rA) ∨ ∃ rA imm, i = .call rA imm := by
  cases i with
  | push rA => exact .inl ⟨rA, rfl⟩
  | call rA imm => exact .inr ⟨rA, imm, rfl⟩
  | _ => simp [Instr.mnemonic] at h

theorem Instr.eq_pop_or_ret_of_mnemonic {i : Instr} (h : i.mnemonic ∈ [Mnemonic.pop, .ret]) :
    (∃ rA, i = .pop rA) ∨ i = .ret := by
  cases i with
  | pop rA => exact .inl ⟨rA, rfl⟩
  | ret => exact .inr rfl
  | _ => simp [Instr.mnemonic] at h

end Sys2Proof

namespace Sys2Proof.Machine

/-! ### Reading and writing a cell (20_memory.md R54) -/

/-- Settles O25: what `State.memRead` and `State.memWrite` answer, and `Memory.read_write`. -/
theorem memWriteSetsOneCell : Obligations.MemWriteSetsOneCell := by
  intro s t a v
  refine ⟨State.memRead_of_lt, fun hm h => ?_, fun b => Nat.le_of_lt_succ (s.mem.read b).isLt⟩
  obtain ⟨-, rfl⟩ := State.memWrite_eq_ok.mp h
  exact ⟨Memory.read_write hm a v, rfl⟩

/-! ### Another memory in place of a state's (20_memory.md R52) -/

/-- The state `s` with memory `m`. -/
def State.withMem (m : Memory) (s : State) : State :=
  { s with mem := m }

/-- An outcome with memory `m`. -/
def outcomeWithMem (m : Memory) : Host.Outcome State Fault Refusal → Host.Outcome State Fault Refusal
  | .next t => .next (t.withMem m)
  | .fault r => .fault r
  | .refused r => .refused r

section

variable (m : Memory) (s : State)

@[simp] theorem State.withMem_mem : (s.withMem m).mem = m := rfl
@[simp] theorem State.withMem_reg (r : Fin 8) : (s.withMem m).reg r = s.reg r := rfl
@[simp] theorem State.withMem_sp : (s.withMem m).sp = s.sp := rfl
@[simp] theorem State.withMem_setReg (r : Fin 8) (v : Byte) :
    (s.withMem m).setReg r v = (s.setReg r v).withMem m := rfl
@[simp] theorem State.withMem_setFlags (v : Byte) :
    (s.withMem m).setFlags v = (s.setFlags v).withMem m := rfl
@[simp] theorem State.withMem_emit (v : Byte) : (s.withMem m).emit v = (s.emit v).withMem m := rfl
@[simp] theorem State.withMem_jump (v : Byte) : (s.withMem m).jump v = (s.jump v).withMem m := rfl
@[simp] theorem State.withMem_advance (n : Mnemonic) :
    (s.withMem m).advance n = (s.advance n).withMem m := rfl
@[simp] theorem State.withMem_closeSlot : (s.withMem m).closeSlot = s.closeSlot.withMem m := rfl

@[simp] theorem State.withMem_openSlot : (s.withMem m).openSlot = State.withMem m <$> s.openSlot := by
  unfold State.openSlot
  rw [State.withMem_sp]
  split_ifs <;> rfl

@[simp] theorem State.withMem_memWrite (a : Nat) (v : Byte) :
    (s.withMem m).memWrite a v = State.withMem (m.write a v) <$> s.memWrite a v := by
  by_cases h : a < s.cfg.memSize
  · rw [State.memWrite_of_lt h, State.memWrite_of_lt (s := s.withMem m) h]
    rfl
  · rw [State.memWrite_of_ge (Nat.not_lt.mp h), State.memWrite_of_ge (s := s.withMem m) (Nat.not_lt.mp h)]
    rfl

/-- A load depends on its own cell alone. -/
theorem State.withMem_memRead {m : Memory} {s : State} {a : Nat} (h : m.read a = s.mem.read a) :
    (s.withMem m).memRead a = s.memRead a := by
  by_cases ha : a < s.cfg.memSize
  · rw [State.memRead_of_lt ha, State.memRead_of_lt (s := s.withMem m) ha, ← h]
    rfl
  · rw [State.memRead_of_ge (Nat.not_lt.mp ha), State.memRead_of_ge (s := s.withMem m) (Nat.not_lt.mp ha)]

/-- A pop's read depends on the cell at SP alone. -/
theorem State.withMem_stackTop {m : Memory} {s : State}
    (h : m.read s.sp.toNat = s.mem.read s.sp.toNat) : (s.withMem m).stackTop = s.stackTop := by
  have hcfg : (s.withMem m).cfg = s.cfg := rfl
  simp only [State.stackTop, hcfg, State.withMem_sp, State.withMem_memRead h]

/-- Fetch depends on its three cells alone. -/
theorem State.withMem_fetch {m : Memory} {s : State} (h0 : m.read s.pc = s.mem.read s.pc)
    (h1 : m.read (s.pc + 1) = s.mem.read (s.pc + 1)) (h2 : m.read (s.pc + 2) = s.mem.read (s.pc + 2)) :
    (s.withMem m).fetch = s.fetch := by
  have hpc : (s.withMem m).pc = s.pc := rfl
  simp only [State.fetch, hpc, State.withMem_memRead h0, State.withMem_memRead h1, State.withMem_memRead h2]

/-- A handler whose result is the old one with memory `m` ends its step so too, faulting or not. -/
theorem finish_withMem (r : Except FaultCause State) :
    finish (s.withMem m) (State.withMem m <$> r) = outcomeWithMem m (finish s r) := by
  cases r <;> rfl

/-! ### Instructions that leave memory alone -/

theorem aluInstr_withMem (n : Mnemonic) (rA rB : Byte) :
    aluInstr n rA rB (s.withMem m) = outcomeWithMem m (aluInstr n rA rB s) := by
  simp [aluInstr, ← finish_withMem]

theorem aluInstrOne_withMem (n : Mnemonic) (rA : Byte) :
    aluInstrOne n rA (s.withMem m) = outcomeWithMem m (aluInstrOne n rA s) := by
  simp [aluInstrOne, ← finish_withMem]

theorem branchIf_withMem (n : Mnemonic) (taken : Bool) (rA : Byte) :
    branchIf n taken rA (s.withMem m) = outcomeWithMem m (branchIf n taken rA s) := by
  cases taken <;> simp [branchIf, ← finish_withMem]

/-- An instruction that is not one of the stack unit's four carries memory along and reads none of it. -/
theorem exec_withMem {i : Instr} (hi : i.mnemonic ∉ [Mnemonic.push, .call, .pop, .ret]) :
    exec i (s.withMem m) = outcomeWithMem m (exec i s) := by
  cases i with
  | push | call | pop | ret => simp [Instr.mnemonic] at hi
  | nop | hlt | iret => rfl
  | ldi => simp [exec, execLdi, ← finish_withMem]
  | prn => simp [exec, execPrn, ← finish_withMem]
  | cmp => simp [exec, execCmp, ← finish_withMem]
  | jmp | jeq | jne => exact branchIf_withMem m s _ _ _
  | add | sub | mul | div | mod | and | or | xor | shl | shr => exact aluInstr_withMem m s _ _ _
  | not => exact aluInstrOne_withMem m s _ _

/-! ### POP and RET -/

/-- POP and RET carry memory along and read the cell at SP alone. -/
theorem exec_withMem_of_pops {m : Memory} {s : State} {i : Instr} (hi : i.mnemonic ∈ [Mnemonic.pop, .ret])
    (h : m.read s.sp.toNat = s.mem.read s.sp.toNat) :
    exec i (s.withMem m) = outcomeWithMem m (exec i s) := by
  rcases Instr.eq_pop_or_ret_of_mnemonic hi with ⟨rA, rfl⟩ | rfl
  · simp [exec, execPop, State.withMem_stackTop h, ← finish_withMem]
  · simp [exec, execRet, State.withMem_stackTop h, ← finish_withMem]

/-- Where replacing memory only replaces it in the answer, the answer holds the old memory: replace it by
itself. -/
theorem mem_eq_of_exec_withMem {i : Instr} {s t : State}
    (hmem : exec i (s.withMem s.mem) = outcomeWithMem s.mem (exec i s)) (h : exec i s = .next t) :
    t.mem = s.mem := by
  have hself : s.withMem s.mem = s := rfl
  rw [hself, h] at hmem
  injection hmem with ht
  exact (congrArg State.mem ht).trans (State.withMem_mem s.mem t)

/-! ### PUSH and CALL -/

/-- A store into an opened slot changes no cell but the one at the decremented SP. -/
theorem read_store_of_ne {s slot : State} (hm : s.mem.wf = true) (hslot : s.openSlot = .ok slot) (v : Byte)
    {b : Nat} (hb : b ≠ s.sp.toNat - 1) :
    (slot.mem.write slot.sp.toNat v).read b = s.mem.read b := by
  have hmem : slot.mem = s.mem := by rw [(State.openSlot_eq_ok.mp hslot).2, State.setReg_mem]
  rw [hmem, State.sp_of_openSlot hslot, Memory.read_write hm, if_neg hb]

/-- PUSH and CALL write the cell at the decremented SP alone. -/
theorem exec_read_of_pushes {i : Instr} {s t : State} (hi : i.mnemonic ∈ [Mnemonic.push, .call])
    (hm : s.mem.wf = true) (h : exec i s = .next t) {b : Nat} (hb : b ≠ s.sp.toNat - 1) :
    t.mem.read b = s.mem.read b := by
  rcases Instr.eq_push_or_call_of_mnemonic hi with ⟨rA, rfl⟩ | ⟨rA, imm, rfl⟩
  · rcases execPush_next h with ⟨f, rfl⟩ | ⟨a, slot, -, hslot, -, rfl⟩
    · rfl
    · exact read_store_of_ne hm hslot _ hb
  · rcases execCall_next h with ⟨f, rfl⟩ | ⟨a, slot, -, hslot, -, rfl⟩
    · rfl
    · exact read_store_of_ne hm hslot _ hb

/-- What PUSH and CALL share: the register check, a slot opened, the byte `v` stored in it, then `k`. -/
def storeHandler (rA : Byte) (v : Fin 8 → State → Byte) (k : Fin 8 → State → State) (s : State) :
    Except FaultCause State := do
  let a ← registerOperand rA
  let slot ← s.openSlot
  let stored ← slot.memWrite slot.sp.toNat (v a slot)
  return k a stored

theorem execPush_eq_storeHandler (rA : Byte) :
    execPush rA s =
      finish s (storeHandler rA (fun a u => u.reg a) (fun _ u => u.advance .push) s) := rfl

theorem execCall_eq_storeHandler (rA imm : Byte) :
    execCall rA imm s = finish s (storeHandler rA (fun _ _ => imm) (fun a u => u.jump (u.reg a)) s) := rfl

/-- Where neither the byte nor what follows the store reads memory, another memory changes no answer of a
storing handler but its memory. -/
theorem exists_storeHandler_withMem (rA : Byte) {v : Fin 8 → State → Byte} {k : Fin 8 → State → State}
    (hv : ∀ a m u, v a (u.withMem m) = v a u) (hk : ∀ a m u, k a (u.withMem m) = (k a u).withMem m) :
    ∃ m', storeHandler rA v k (s.withMem m) = State.withMem m' <$> storeHandler rA v k s := by
  unfold storeHandler
  cases registerOperand rA with
  | error f => exact ⟨m, rfl⟩
  | ok a =>
    rw [State.withMem_openSlot]
    cases s.openSlot with
    | error f => exact ⟨m, rfl⟩
    | ok slot => exact ⟨m.write slot.sp.toNat (v a slot), by simp [hv, hk]⟩

/-- A handler that answers the old result with memory `m'` ends its step so, or with the fault and the
memory the step began with. -/
theorem exists_finish_withMem {m' : Memory} {r r' : Except FaultCause State}
    (h : r' = State.withMem m' <$> r) :
    ∃ m'', finish (s.withMem m) r' = outcomeWithMem m'' (finish s r) := by
  subst h
  cases r with
  | ok t => exact ⟨m', rfl⟩
  | error f => exact ⟨m, rfl⟩

/-- PUSH and CALL read no memory: with another memory they answer the same but for memory. -/
theorem exec_withMem_of_pushes {i : Instr} (hi : i.mnemonic ∈ [Mnemonic.push, .call]) :
    ∃ m', exec i (s.withMem m) = outcomeWithMem m' (exec i s) := by
  rcases Instr.eq_push_or_call_of_mnemonic hi with ⟨rA, rfl⟩ | ⟨rA, imm, rfl⟩
  · simp only [exec, execPush_eq_storeHandler]
    obtain ⟨m', h⟩ := exists_storeHandler_withMem m s rA (v := fun a u => u.reg a)
      (k := fun _ u => u.advance .push) (fun _ _ _ => rfl) (fun _ _ _ => rfl)
    exact exists_finish_withMem m s h
  · simp only [exec, execCall_eq_storeHandler]
    obtain ⟨m', h⟩ := exists_storeHandler_withMem m s rA (v := fun _ _ => imm)
      (k := fun a u => u.jump (u.reg a)) (fun _ _ _ => rfl) (fun _ _ _ => rfl)
    exact exists_finish_withMem m s h

end

/-- Settles O44: fetch by its three loads, and each group of instructions by the lemma that replaces memory
before it. -/
theorem onlyTheseAccessesReachMemory : Obligations.OnlyTheseAccessesReachMemory := by
  refine ⟨fun s m h0 h1 h2 => State.withMem_fetch h0 h1 h2, fun s t i hi h => ?_, fun s t i hi hm h => ?_,
    fun s t i hi h => ?_⟩
  · refine ⟨mem_eq_of_exec_withMem (exec_withMem s.mem s hi) h, fun m => ?_⟩
    exact (exec_withMem m s hi).trans (by rw [h]; rfl)
  · refine ⟨fun b hb => exec_read_of_pushes hi hm h hb, fun m => ?_⟩
    obtain ⟨m', hm'⟩ := exec_withMem_of_pushes m s hi
    exact ⟨m', hm'.trans (by rw [h]; rfl)⟩
  · refine ⟨mem_eq_of_exec_withMem (exec_withMem_of_pops hi rfl) h, fun m hread => ?_⟩
    exact (exec_withMem_of_pops hi hread).trans (by rw [h]; rfl)

end Sys2Proof.Machine
end

section
/-! PROOFS. 30_encoding.md R78: DECODE as a table lookup, and the two groups of mnemonics in the table. -/

namespace Sys2Proof

/-- 30_encoding.md R78, for an admitted configuration: what the lookup answers is exactly the enabled mnemonic
with the byte. -/
theorem Config.lookup_eq_some_iff {c : Config} (hc : c.wf = true) {op : Byte} {m : Mnemonic} :
    c.lookup op = some m ↔ c.enabled m = true ∧ c.opMap.code m = op := by
  constructor
  · exact Config.lookup_sound
  · rintro ⟨hm, rfl⟩
    exact Config.lookup_code hc hm

theorem Mnemonic.isBitwise_iff_mem {m : Mnemonic} :
    m.isBitwise = true ↔ m ∈ [Mnemonic.and, .or, .xor, .not, .shl, .shr] := by
  cases m <;> decide

/-- The 18 mnemonics without a star in 30_encoding.md R76. -/
theorem Mnemonic.isBitwise_eq_false_iff_mem {m : Mnemonic} :
    m.isBitwise = false ↔
      m ∈ [Mnemonic.nop, .hlt, .ret, .iret, .push, .pop, .prn, .call, .jmp, .jeq, .jne, .ldi,
        .add, .sub, .mul, .div, .mod, .cmp] := by
  cases m <;> decide

/-- 00_scope.md R8: a mnemonic outside the optional group is always in the table, one of the group with
`EXT_BITWISE`. -/
theorem Config.enabled_iff {c : Config} {m : Mnemonic} :
    c.enabled m = true ↔ m.isBitwise = false ∨ (m.isBitwise = true ∧ c.extBitwise = true) := by
  cases hm : m.isBitwise with
  | false => simp [Config.enabled, hm]
  | true => simp [Config.enabled_of_isBitwise hm]

end Sys2Proof

namespace Sys2Proof.Machine

/-- Settles O3: the lookup is sound, and complete because an admitted `OPMAP` is injective on the enabled
mnemonics; those are split by membership in the optional group. -/
theorem decodeIsTableLookup : Obligations.DecodeIsTableLookup := by
  intro c hc
  refine ⟨fun op m => Config.lookup_eq_some_iff hc, fun op => ?_, fun m => ?_⟩
  · simp only [Config.lookup_none, not_and, ne_eq]
  · rw [← Mnemonic.isBitwise_eq_false_iff_mem, ← Mnemonic.isBitwise_iff_mem]
    exact Config.enabled_iff

end Sys2Proof.Machine
end

section
/-! PROOFS. 40_engine.md: the fetch check, the register check, how a step ends, and the engine's advance. -/

namespace Sys2Proof.Machine

/-! ### Fetch and decode faults (40_engine.md R91, R94) -/

/-- 40_engine.md R91: fetch reports the first of its three addresses that is not in memory. -/
theorem State.fetch_of_first_bad {s : State} {k : Nat} (hk : k ≤ 2)
    (hbefore : ∀ j < k, s.pc + j < s.cfg.memSize) (hbad : s.cfg.memSize ≤ s.pc + k) :
    s.fetch = .error (.outOfRangeAccess .memory (s.pc + k)) := by
  have hok : ∀ j < k, s.memRead (s.pc + j) = .ok (s.mem.read (s.pc + j)) := fun j hj =>
    State.memRead_of_lt (hbefore j hj)
  have herror := State.memRead_of_ge hbad
  unfold State.fetch
  match k, hk with
  | 0, _ =>
    rw [Nat.add_zero] at herror
    rw [herror, bind_error_left, Nat.add_zero]
  | 1, _ =>
    have hpc : s.memRead s.pc = .ok (s.mem.read s.pc) := hok 0 Nat.one_pos
    rw [hpc, bind_ok_left, herror, bind_error_left]
  | 2, _ =>
    have hpc : s.memRead s.pc = .ok (s.mem.read s.pc) := hok 0 Nat.two_pos
    rw [hpc, bind_ok_left, hok 1 Nat.one_lt_two, bind_ok_left, herror, bind_error_left]

theorem step_of_first_bad {s : State} (hrun : s.run = .running) {k : Nat} (hk : k ≤ 2)
    (hbefore : ∀ j < k, s.pc + j < s.cfg.memSize) (hbad : s.cfg.memSize ≤ s.pc + k) :
    step s = .next (s.takeFault (.outOfRangeAccess .memory (s.pc + k))) := by
  refine step_of_error hrun ?_
  rw [State.nextInstr, State.fetch_of_first_bad hk hbefore hbad, bind_error_left]

/-- Settles O9: the three cases of the first bad address; at 254 and 255 of 256 cells that address is 256. -/
theorem fetchFaultsOnFirstBadAddress : Obligations.FetchFaultsOnFirstBadAddress := by
  intro s hrun
  refine ⟨fun h => ?_, fun h0 h1 => ?_, fun h1 h2 => ?_, fun hsize hpc => ?_⟩
  · exact step_of_first_bad hrun (k := 0) (by omega) (by omega) h
  · exact step_of_first_bad hrun (k := 1) (by omega) (by omega) h1
  · exact step_of_first_bad hrun (k := 2) (by omega) (by omega) h2
  · obtain ⟨k, hk, hsum⟩ : ∃ k ≤ 2, s.pc + k = 256 := ⟨256 - s.pc, by omega, by omega⟩
    rw [← hsum]
    exact step_of_first_bad hrun hk (by omega) (by omega)

/-- Settles O10, by the step on a byte in no row of the table. -/
theorem unknownOpcodeFaults : Obligations.UnknownOpcodeFaults := fun _ hrun hpc hnone =>
  step_of_lookup_none hrun hpc hnone

/-! ### The register check (40_engine.md R95) -/

/-- The register operands of format F1R (30_encoding.md R70). -/
theorem registerOperands_f1r (rA : Byte) :
    ∀ i ∈ [Instr.push rA, .pop rA, .prn rA, .jmp rA, .jeq rA, .jne rA, .not rA],
      i.registerOperands = [rA] := by
  simp [Instr.registerOperands]

/-- The register operands of format F2RL: the literal is none. -/
theorem registerOperands_f2rl (rA imm : Byte) :
    ∀ i ∈ [Instr.ldi rA imm, .call rA imm], i.registerOperands = [rA] := by
  simp [Instr.registerOperands]

/-- The register operands of format F2RR. -/
theorem registerOperands_f2rr (rA rB : Byte) :
    ∀ i ∈ [Instr.add rA rB, .sub rA rB, .mul rA rB, .div rA rB, .mod rA rB, .cmp rA rB, .and rA rB,
        .or rA rB, .xor rA rB, .shl rA rB, .shr rA rB], i.registerOperands = [rA, rB] := by
  simp [Instr.registerOperands]

section

variable {i : Instr} {rA rB : Byte} {f : FaultCause}

theorem registerFault_of_no_operand (hops : i.registerOperands = []) : registerFault i = none := by
  simp [registerFault, hops]

/-- The check of a one-register form is `registerFault`. -/
theorem registerOperand_eq_error (hops : i.registerOperands = [rA]) :
    registerOperand rA = .error f ↔ registerFault i = some f := by
  by_cases hA : rA.toNat < 8
  · simp [registerFault, hops, registerOperand_of_lt hA, hA]
  · simp [registerFault, hops, registerOperand_of_ge (Nat.not_lt.mp hA), Nat.not_lt.mp hA]

/-- The check of a two-register form, `A` before `B`, is `registerFault`. -/
theorem registerPair_eq_error (hops : i.registerOperands = [rA, rB]) :
    registerPair rA rB = .error f ↔ registerFault i = some f := by
  by_cases hA : rA.toNat < 8
  · by_cases hB : rB.toNat < 8
    · simp [registerFault, hops, registerPair, pure, Except.pure, registerOperand_of_lt, hA, hB]
    · simp [registerFault, hops, registerPair, registerOperand_of_lt hA, hA,
        registerOperand_of_ge (Nat.not_lt.mp hB), Nat.not_lt.mp hB]
  · simp [registerFault, hops, registerPair, registerOperand_of_ge (Nat.not_lt.mp hA), Nat.not_lt.mp hA]

theorem registerFault_of_first_ge {rest : List Byte} (hops : i.registerOperands = rA :: rest)
    (hA : 8 ≤ rA.toNat) : registerFault i = some (.outOfRangeAccess .register rA.toNat) := by
  simp [registerFault, hops, hA]

theorem registerFault_of_second_ge (hops : i.registerOperands = [rA, rB]) (hA : rA.toNat < 8)
    (hB : 8 ≤ rB.toNat) : registerFault i = some (.outOfRangeAccess .register rB.toNat) := by
  simp [registerFault, hops, hA, hB]

theorem registerFault_of_valid (hvalid : ∀ r ∈ i.registerOperands, r.toNat < 8) :
    registerFault i = none := by
  simpa [registerFault] using hvalid

/-- Every meaning begins with the register check: what it reports is what the step reports. -/
theorem exec_of_registerFault (s : State) (h : registerFault i = some f) :
    exec i s = .next (s.takeFault f) := by
  cases i with
  | nop | hlt | ret | iret => cases (registerFault_of_no_operand rfl).symm.trans h
  | push | pop | prn | call | jmp | jeq | jne | ldi | not =>
    have hcheck := (registerOperand_eq_error rfl).mpr h
    simp [exec, execPush, execPop, execPrn, execCall, execJmp, execJeq, execJne, branchIf, execLdi,
      execNot, aluInstrOne, hcheck]
  | add | sub | mul | div | mod | cmp | and | or | xor | shl | shr =>
    have hcheck := (registerPair_eq_error rfl).mpr h
    simp [exec, execAdd, execSub, execMul, execDiv, execMod, execAnd, execOr, execXor, execShl, execShr,
      aluInstr, execCmp, hcheck]

end

/-! ### How an instruction ends (40_engine.md R99) -/

/-- The faults a handler raises after the register check (60_exceptions.md R184, point 4; the last one is
that of a stack access). -/
def FaultCause.isOfHandler : FaultCause → Bool
  | .divideByZero | .stackUnderflow | .stackOverflow | .outOfRangeAccess .memory _ => true
  | .unsupportedOperation | .outOfRangeAccess .register _ | .unknownOpcode _ => false

/-- The faults an instruction can end in: its register check's, or one of a handler. -/
def FaultCause.IsOf (i : Instr) (f : FaultCause) : Prop :=
  registerFault i = some f ∨ f.isOfHandler = true

/-- A result meets `P`, or the fault raised meets `F`. -/
def Answers {α : Type} (P : α → Prop) (F : FaultCause → Prop) : Except FaultCause α → Prop
  | .ok a => P a
  | .error f => F f

section

variable {α β : Type} {P : α → Prop} {Q : β → Prop} {F : FaultCause → Prop}

theorem answers_iff {r : Except FaultCause α} :
    Answers P F r ↔ (∀ a, r = .ok a → P a) ∧ ∀ f, r = .error f → F f := by
  cases r <;> simp [Answers]

/-- Sequencing: what the first check answers is what the second may assume. -/
theorem Answers.bind {r : Except FaultCause α} {k : α → Except FaultCause β} (hr : Answers P F r)
    (hk : ∀ a, P a → Answers Q F (k a)) : Answers Q F (r >>= k) := by
  cases r with
  | ok a => exact hk a hr
  | error f => exact hr

end

section

variable {i : Instr} {s : State} {rA rB : Byte} {m : Mnemonic}

theorem answers_registerOperand (hops : i.registerOperands = [rA]) :
    Answers (fun _ => True) (FaultCause.IsOf i) (registerOperand rA) :=
  answers_iff.mpr ⟨fun _ _ => trivial, fun _ h => .inl ((registerOperand_eq_error hops).mp h)⟩

theorem answers_registerPair (hops : i.registerOperands = [rA, rB]) :
    Answers (fun _ => True) (FaultCause.IsOf i) (registerPair rA rB) :=
  answers_iff.mpr ⟨fun _ _ => trivial, fun _ h => .inl ((registerPair_eq_error hops).mp h)⟩

theorem answers_aluApply (hm : m ∈ aluMnemonics) (a b : Byte) :
    Answers (fun _ => True) (FaultCause.IsOf i) (aluApply m a b) := by
  cases m with
  | div | mod =>
    simp only [aluApply, aluDiv, aluMod]
    split
    · exact .inr rfl
    · exact trivial
  | add | sub | mul | and | or | xor | not | shl | shr => exact trivial
  | _ => simp [aluMnemonics] at hm

theorem answers_openSlot : Answers (fun t => t.run = s.run) (FaultCause.IsOf i) s.openSlot := by
  unfold State.openSlot
  split
  · exact .inr rfl
  · exact State.setReg_run _ _ _

theorem answers_memWrite (a : Nat) (v : Byte) :
    Answers (fun t => t.run = s.run) (FaultCause.IsOf i) (s.memWrite a v) := by
  unfold State.memWrite
  split
  · exact rfl
  · exact .inr rfl

theorem answers_stackTop : Answers (fun _ => True) (FaultCause.IsOf i) s.stackTop := by
  unfold State.stackTop State.memRead
  split_ifs
  · exact .inr rfl
  · exact trivial
  · exact .inr rfl

/-- The outcome is `finish` of a result whose state runs on as before or is halted, or whose fault is one of
`i`'s. -/
def EndsAs (i : Instr) (s : State) (o : Host.Outcome State Fault Refusal) : Prop :=
  ∃ r, o = finish s r ∧ Answers (fun t => t.run = s.run ∨ t.run = .halted) (FaultCause.IsOf i) r

theorem endsAs_aluInstr (hops : i.registerOperands = [rA, rB]) (hm : m ∈ aluMnemonics) :
    EndsAs i s (aluInstr m rA rB s) :=
  ⟨_, rfl, (answers_registerPair hops).bind fun _ _ => (answers_aluApply hm _ _).bind fun _ _ => .inl rfl⟩

theorem endsAs_aluInstrOne (hops : i.registerOperands = [rA]) (hm : m ∈ aluMnemonics) :
    EndsAs i s (aluInstrOne m rA s) :=
  ⟨_, rfl, (answers_registerOperand hops).bind fun _ _ =>
    (answers_aluApply hm _ _).bind fun _ _ => .inl rfl⟩

theorem endsAs_branchIf (hops : i.registerOperands = [rA]) (taken : Bool) :
    EndsAs i s (branchIf m taken rA s) :=
  ⟨_, rfl, (answers_registerOperand hops).bind fun _ _ => .inl (by cases taken <;> rfl)⟩

theorem exec_endsAs (i : Instr) (s : State) : EndsAs i s (exec i s) := by
  cases i with
  | nop => exact ⟨.ok _, rfl, .inl rfl⟩
  | hlt | iret => exact ⟨.ok _, rfl, .inr rfl⟩
  | ret => exact ⟨_, rfl, answers_stackTop.bind fun _ _ => .inl rfl⟩
  | pop =>
    exact ⟨_, rfl, (answers_registerOperand rfl).bind fun _ _ => answers_stackTop.bind fun _ _ => .inl rfl⟩
  | push | call =>
    exact ⟨_, rfl, (answers_registerOperand rfl).bind fun _ _ => answers_openSlot.bind fun _ hslot =>
      (answers_memWrite _ _).bind fun _ hstore => .inl (hstore.trans hslot)⟩
  | prn | ldi => exact ⟨_, rfl, (answers_registerOperand rfl).bind fun _ _ => .inl rfl⟩
  | cmp => exact ⟨_, rfl, (answers_registerPair rfl).bind fun _ _ => .inl rfl⟩
  | jmp | jeq | jne => exact endsAs_branchIf rfl _
  | add | sub | mul | div | mod | and | or | xor | shl | shr => exact endsAs_aluInstr rfl (by decide)
  | not => exact endsAs_aluInstrOne rfl (by decide)

/-- An instruction that ends faulted only took the fault, and it is one the instruction can raise. -/
theorem exec_faulted {t : State} {f : FaultCause} (hrun : s.run = .running) (h : exec i s = .next t)
    (hf : t.run = .faulted f) : t = s.takeFault f ∧ FaultCause.IsOf i f := by
  obtain ⟨r, hr, hanswers⟩ := exec_endsAs i s
  rw [hr] at h
  rcases finish_eq_next.mp h with rfl | ⟨g, rfl, rfl⟩
  · rcases hanswers with hkept | hhalted
    · cases hf.symm.trans (hkept.trans hrun)
    · cases hf.symm.trans hhalted
  · cases hf
    exact ⟨rfl, hanswers⟩

end

/-- Settles O11: the first register operand out of range is what `exec_of_registerFault` reports; without
one, `exec_faulted` leaves only the handlers' own faults. -/
theorem registerOperandsAreCheckedFirst : Obligations.RegisterOperandsAreCheckedFirst := by
  refine ⟨fun s rA hA i hi => ?_, fun s rA imm hA i hi => ?_, fun s rA rB hA i hi => ?_,
    fun s rA rB hA hB i hi => ?_, fun s t i n hvalid hrun h hfault => ?_⟩
  · exact exec_of_registerFault s (registerFault_of_first_ge (registerOperands_f1r rA i hi) hA)
  · exact exec_of_registerFault s (registerFault_of_first_ge (registerOperands_f2rl rA imm i hi) hA)
  · exact exec_of_registerFault s (registerFault_of_first_ge (registerOperands_f2rr rA rB i hi) hA)
  · exact exec_of_registerFault s (registerFault_of_second_ge (registerOperands_f2rr rA rB i hi) hA hB)
  · obtain ⟨-, hreg | hhandler⟩ := exec_faulted hrun h hfault
    · cases (registerFault_of_valid hvalid).symm.trans hreg
    · cases hhandler

/-- Settles O15: a fetch or decode fault is taken as it is, and a meaning that ends faulted is
`exec_faulted`. -/
theorem faultDiscardsTheStep : Obligations.FaultDiscardsTheStep := by
  intro s t f h hf
  obtain ⟨hrun, ⟨g, -, rfl⟩ | ⟨i, -, hexec⟩⟩ := step_next h
  · cases hf
    rfl
  · obtain ⟨ht, -⟩ := exec_faulted hrun hexec hf
    exact ht

/-! ### The engine's advance (40_engine.md R97) -/

section

variable {s t : State} {rA imm : Byte} {m : Mnemonic} {taken : Bool}

theorem State.getElem?_registerByte (s : State) (a : Fin 8) :
    s.x[(registerByte a).toNat]? = some (s.reg a) := by
  simp [State.reg]

theorem branchIf_taken_pc (htaken : taken = true) (hok : ∀ f, t.run ≠ .faulted f)
    (h : branchIf m taken rA s = .next t) : s.x[rA.toNat]?.map (·.toNat) = some t.pc := by
  subst htaken
  rcases branchIf_next h with ⟨f, rfl⟩ | ⟨a, rfl, rfl⟩
  · exact absurd rfl (hok f)
  · rw [State.getElem?_registerByte]
    rfl

theorem branchIf_not_taken_pc (htaken : taken = false) (hok : ∀ f, t.run ≠ .faulted f)
    (h : branchIf m taken rA s = .next t) : t.pc = s.pc + 1 + m.arity := by
  subst htaken
  rcases branchIf_next h with ⟨f, rfl⟩ | ⟨a, -, rfl⟩
  · exact absurd rfl (hok f)
  · rfl

theorem execCall_pc (hok : ∀ f, t.run ≠ .faulted f) (h : exec (.call rA imm) s = .next t) :
    t.x[rA.toNat]?.map (·.toNat) = some t.pc := by
  rcases execCall_next h with ⟨f, rfl⟩ | ⟨a, slot, rfl, -, -, rfl⟩
  · exact absurd rfl (hok f)
  · rw [State.getElem?_registerByte]
    rfl

theorem execRet_pc (hok : ∀ f, t.run ≠ .faulted f) (h : exec .ret s = .next t) :
    t.pc = (s.mem.read s.sp.toNat).toNat := by
  rcases execRet_next h with ⟨f, rfl⟩ | ⟨v, hv, rfl⟩
  · exact absurd rfl (hok f)
  · obtain ⟨-, -, rfl⟩ := State.stackTop_eq_ok.mp hv
    rfl

theorem aluInstr_pc {rB : Byte} (hok : ∀ f, t.run ≠ .faulted f) (h : aluInstr m rA rB s = .next t) :
    t.pc = s.pc + 1 + m.arity := by
  rcases aluInstr_next h with ⟨f, rfl⟩ | ⟨a, b, v, -, -, -, rfl⟩
  · exact absurd rfl (hok f)
  · rfl

/-- Every instruction whose handler leaves `pc` alone ends at the next instruction. -/
theorem exec_advances {i : Instr} (hok : ∀ f, t.run ≠ .faulted f) (h : exec i s = .next t)
    (hjump : i.mnemonic ∉ [Mnemonic.jmp, .call, .ret])
    (hjeq : ¬(i.mnemonic = .jeq ∧ s.flagEqual = true)) (hjne : ¬(i.mnemonic = .jne ∧ s.flagEqual = false)) :
    t.pc = s.pc + 1 + i.mnemonic.arity := by
  have hnot : ∀ f, t ≠ s.takeFault f := fun f e => hok f (e ▸ rfl)
  cases i with
  | jmp | call | ret => simp [Instr.mnemonic] at hjump
  | nop | hlt | iret => cases h; rfl
  | jeq => exact branchIf_not_taken_pc (by simpa [Instr.mnemonic] using hjeq) hok h
  | jne => exact branchIf_not_taken_pc (by simpa [Instr.mnemonic] using hjne) hok h
  | push =>
    obtain ⟨a, slot, -, hslot, -, rfl⟩ := (execPush_next h).resolve_left (not_exists.mpr hnot)
    obtain ⟨-, rfl⟩ := State.openSlot_eq_ok.mp hslot
    rfl
  | pop =>
    obtain ⟨a, v, -, -, rfl⟩ := (execPop_next h).resolve_left (not_exists.mpr hnot)
    rfl
  | prn =>
    obtain ⟨a, -, rfl⟩ := (execPrn_next h).resolve_left (not_exists.mpr hnot)
    rfl
  | ldi =>
    obtain ⟨a, -, rfl⟩ := (execLdi_next h).resolve_left (not_exists.mpr hnot)
    rfl
  | cmp =>
    obtain ⟨a, b, -, -, rfl⟩ := (execCmp_next h).resolve_left (not_exists.mpr hnot)
    rfl
  | not =>
    obtain ⟨a, v, -, -, rfl⟩ := (aluInstrOne_next h).resolve_left (not_exists.mpr hnot)
    rfl
  | add | sub | mul | div | mod | and | or | xor | shl | shr => exact aluInstr_pc hok h

end

/-- Settles O14: a taken branch, CALL and RET by what their handler set `pc` to, the rest by
`exec_advances`. -/
theorem engineAdvancesUnlessHandlerSetPc : Obligations.EngineAdvancesUnlessHandlerSetPc := by
  intro s t i _ h hok
  refine ⟨?_, ?_, ?_, exec_advances hok h⟩
  · rintro rA (rfl | ⟨rfl, htaken⟩ | ⟨rfl, htaken⟩)
    · exact branchIf_taken_pc rfl hok h
    · exact branchIf_taken_pc htaken hok h
    · exact branchIf_taken_pc (congrArg not htaken) hok h
  · rintro rA imm rfl
    exact execCall_pc hok h
  · rintro rfl
    exact execRet_pc hok h

end Sys2Proof.Machine
end

section
/-! PROOFS. 41_alu.md: what an ALU instruction does, and the values of its operations as arithmetic on naturals. -/

namespace Sys2Proof.Machine

/-! ### Where the result goes (41_alu.md R116) -/

section

variable {s : State} {m : Mnemonic} {a b : Fin 8}

theorem aluInstr_registerByte :
    aluInstr m (registerByte a) (registerByte b) s = finish s do
      let v ← aluApply m (s.reg a) (s.reg b)
      return (s.setReg a v).advance m := by
  rw [aluInstr, registerPair_registerByte, bind_ok_left]

theorem aluInstrOne_registerByte :
    aluInstrOne m (registerByte a) s = finish s do
      let v ← aluApply m (s.reg a) 0
      return (s.setReg a v).advance m := by
  rw [aluInstrOne, registerOperand_registerByte, bind_ok_left]

/-- All eleven instructions in one form: `aluApply` of NOT ignores its second value, so `rB` may stand there. -/
theorem exec_alu (hm : m ∈ aluMnemonics) :
    exec (m.toInstr (registerByte a) (registerByte b)) s = finish s do
      let v ← aluApply m (s.reg a) (s.reg b)
      return (s.setReg a v).advance m := by
  cases m with
  | add | sub | mul | div | mod | and | or | xor | shl | shr => exact aluInstr_registerByte
  | not => exact aluInstrOne_registerByte
  | _ => simp [aluMnemonics] at hm

theorem exec_alu_of_ok (hm : m ∈ aluMnemonics) {v : Byte} (h : aluApply m s.x[a] s.x[b] = .ok v) :
    exec (m.toInstr (registerByte a) (registerByte b)) s =
      .next { s with x := s.x.set a v, pc := s.pc + 1 + m.arity } := by
  rw [exec_alu hm, State.reg, State.reg, h]
  rfl

theorem exec_alu_of_error (hm : m ∈ aluMnemonics) {f : FaultCause}
    (h : aluApply m s.x[a] s.x[b] = .error f) :
    exec (m.toInstr (registerByte a) (registerByte b)) s = .next { s with run := .faulted f } := by
  rw [exec_alu hm, State.reg, State.reg, h]
  rfl

end

/-- Settles O32: `exec_alu` in its two cases, the operation's value and its fault. -/
theorem aluResultGoesToFirstOperand : Obligations.AluResultGoesToFirstOperand :=
  fun _ _ _ _ hm => ⟨fun _ => exec_alu_of_ok hm, fun _ => exec_alu_of_error hm⟩

/-! ### Addition, subtraction and multiplication (41_alu.md R111) -/

/-- The reduction modulo 256 is the byte's own. -/
theorem byte_ofNat_mod (n : Nat) : BitVec.ofNat 8 (n % 256) = BitVec.ofNat 8 n :=
  BitVec.eq_of_toNat_eq (by simp)

theorem aluAdd_eq (a b : Byte) : aluAdd a b = BitVec.ofNat 8 ((a.toNat + b.toNat) % 256) := by
  rw [byte_ofNat_mod, aluAdd, ← Nat.cast_add, mask8_natCast]

theorem aluMul_eq (a b : Byte) : aluMul a b = BitVec.ofNat 8 ((a.toNat * b.toNat) % 256) := by
  rw [byte_ofNat_mod, aluMul, ← Nat.cast_mul, mask8_natCast]

/-- Masking forgets a multiple of 256, so a negative difference may be borrowed for. -/
theorem mask8_add_256 (z : Int) : mask8 (256 + z) = mask8 z :=
  BitVec.eq_of_toNat_eq (by simp [mask8, BitVec.toNat_ofInt])

theorem aluSub_eq (a b : Byte) :
    aluSub a b = BitVec.ofNat 8
      (if a.toNat < b.toNat then 256 + a.toNat - b.toNat else a.toNat - b.toNat) := by
  have hb : b.toNat < 256 := b.isLt
  rw [aluSub, ← mask8_natCast]
  split
  case isTrue hlt =>
    have hborrow : ((256 + a.toNat - b.toNat : Nat) : Int) = 256 + ((a.toNat : Int) - b.toNat) := by omega
    rw [hborrow, mask8_add_256]
  case isFalse hge =>
    rw [Nat.cast_sub (Nat.not_lt.mp hge)]

/-- Settles O28: the three operations never fault, and their values are `aluAdd_eq`, `aluSub_eq` and
`aluMul_eq`. -/
theorem addSubMulWrapModulo256 : Obligations.AddSubMulWrapModulo256 := fun _ _ _ =>
  ⟨exec_alu_of_ok (m := .add) (by decide) (congrArg Except.ok (aluAdd_eq _ _)),
    exec_alu_of_ok (m := .sub) (by decide) (congrArg Except.ok (aluSub_eq _ _)),
    exec_alu_of_ok (m := .mul) (by decide) (congrArg Except.ok (aluMul_eq _ _))⟩

/-! ### Division (41_alu.md R112) -/

theorem aluDiv_of_ne_zero {b : Byte} (hb : b ≠ 0) (a : Byte) :
    aluDiv a b = .ok (BitVec.ofNat 8 (a.toNat / b.toNat)) := by
  rw [aluDiv, if_neg hb, mask8_natCast]

theorem aluMod_of_ne_zero {b : Byte} (hb : b ≠ 0) (a : Byte) :
    aluMod a b = .ok (BitVec.ofNat 8 (a.toNat % b.toNat)) := by
  rw [aluMod, if_neg hb, mask8_natCast]

theorem aluDiv_of_zero {b : Byte} (hb : b = 0) (a : Byte) : aluDiv a b = .error .divideByZero := if_pos hb

theorem aluMod_of_zero {b : Byte} (hb : b = 0) (a : Byte) : aluMod a b = .error .divideByZero := if_pos hb

/-- Settles O29: the divisor is zero or not, and DIV and MOD answer accordingly. -/
theorem divModTruncateOrFault : Obligations.DivModTruncateOrFault := fun _ _ _ =>
  ⟨fun hb =>
    ⟨exec_alu_of_ok (m := .div) (by decide) (aluDiv_of_ne_zero hb _),
      exec_alu_of_ok (m := .mod) (by decide) (aluMod_of_ne_zero hb _)⟩,
    fun hb =>
    ⟨exec_alu_of_error (m := .div) (by decide) (aluDiv_of_zero hb _),
      exec_alu_of_error (m := .mod) (by decide) (aluMod_of_zero hb _)⟩⟩

/-! ### The bitwise operations (41_alu.md R113) -/

theorem byte_toNat_not (a : Byte) : (~~~a).toNat = 255 - a.toNat := BitVec.toNat_not

/-- NOT is computed as 255 - a, which inverts each bit. -/
theorem aluNot_eq (a : Byte) : aluNot a = ~~~a := by
  have ha : a.toNat < 256 := a.isLt
  have hcast : (255 : Int) - a.toNat = ((~~~a).toNat : Nat) := by
    rw [byte_toNat_not]
    omega
  rw [aluNot, hcast, mask8_natCast, BitVec.ofNat_toNat, BitVec.setWidth_eq]

/-- Settles O30: AND, OR and XOR are those of the bytes by definition, NOT by `aluNot_eq`. -/
theorem bitwiseActsOnEveryBit : Obligations.BitwiseActsOnEveryBit := fun _ _ b =>
  ⟨exec_alu_of_ok (m := .and) (by decide) rfl,
    exec_alu_of_ok (m := .or) (by decide) rfl,
    exec_alu_of_ok (m := .xor) (by decide) rfl,
    exec_alu_of_ok (m := .not) (b := b) (by decide) (congrArg Except.ok (aluNot_eq _)),
    byte_toNat_not _⟩

/-! ### The shifts (41_alu.md R114) -/

theorem aluShl_eq (a b : Byte) : aluShl a b = BitVec.ofNat 8 ((a.toNat * 2 ^ (b.toNat % 8)) % 256) := by
  rw [byte_ofNat_mod, aluShl, mask8_natCast]

theorem aluShr_eq (a b : Byte) : aluShr a b = BitVec.ofNat 8 (a.toNat / 2 ^ (b.toNat % 8)) := by
  rw [aluShr, mask8_natCast]

/-- Only the amount modulo 8 counts. -/
theorem aluShl_amount_congr {b c : Byte} (h : b.toNat % 8 = c.toNat % 8) (a : Byte) :
    aluShl a b = aluShl a c := by
  rw [aluShl, aluShl, h]

theorem aluShr_amount_congr {b c : Byte} (h : b.toNat % 8 = c.toNat % 8) (a : Byte) :
    aluShr a b = aluShr a c := by
  rw [aluShr, aluShr, h]

theorem aluShl_zero (a : Byte) : aluShl a 0 = a := by
  simp [aluShl]

theorem aluShr_zero (a : Byte) : aluShr a 0 = a := by
  simp [aluShr]

/-- Settles O31: the values are `aluShl_eq` and `aluShr_eq`; an amount of 8 acts as 0 and one of 9 as 1. -/
theorem shiftsTakeAmountModulo8 : Obligations.ShiftsTakeAmountModulo8 :=
  ⟨fun _ _ _ =>
    ⟨exec_alu_of_ok (m := .shl) (by decide) (congrArg Except.ok (aluShl_eq _ _)),
      exec_alu_of_ok (m := .shr) (by decide) (congrArg Except.ok (aluShr_eq _ _))⟩,
    fun v =>
    ⟨(aluShl_amount_congr rfl v).trans (aluShl_zero v), (aluShr_amount_congr rfl v).trans (aluShr_zero v),
      aluShl_amount_congr rfl v, aluShr_amount_congr rfl v⟩⟩

end Sys2Proof.Machine
end

section
/-! PROOFS. 44_control_io.md: the opcode of an instruction outside the bitwise group, and what HLT, LDI and
PRN do. -/

namespace Sys2Proof

/-- 30_encoding.md R78: an instruction outside the bitwise group is in every admitted configuration's table. -/
theorem decode_code_of_not_isBitwise {c : Config} (hc : c.wf = true) {m : Mnemonic}
    (hm : m.isBitwise = false) (a b : Byte) : decode c (c.opMap.code m) a b = .ok (m.toInstr a b) :=
  decode_code hc (by simp [Config.enabled, hm]) a b

end Sys2Proof

namespace Sys2Proof.Machine

theorem step_ne_next_of_not_running {s : State} (hs : s.run ≠ .running) (t : State) : step s ≠ .next t :=
  fun h => hs (step_next h).1

/-- The engine's advance takes HLT one past its byte. -/
theorem exec_hlt (s : State) : exec .hlt s = .next { s with run := .halted, pc := s.pc + 1 } := rfl

theorem exec_ldi_registerByte (s : State) (a : Fin 8) (imm : Byte) :
    exec (.ldi (registerByte a) imm) s = .next { s with x := s.x.set a imm, pc := s.pc + 3 } := by
  rw [exec, execLdi, registerOperand_registerByte, bind_ok_left]
  rfl

theorem exec_prn_registerByte (s : State) (a : Fin 8) :
    exec (.prn (registerByte a)) s = .next { s with out := s.out ++ [s.x[a]], pc := s.pc + 2 } := by
  rw [exec, execPrn, registerOperand_registerByte, bind_ok_left]
  rfl

/-- 40_engine.md R95: what an instruction does whose first register operand is out of range. -/
theorem exec_of_first_register_ge {i : Instr} {rA : Byte} {rest : List Byte}
    (hops : i.registerOperands = rA :: rest) (hA : 8 ≤ rA.toNat) (s : State) :
    exec i s = .next { s with run := .faulted (.outOfRangeAccess .register rA.toNat) } :=
  exec_of_registerFault s (registerFault_of_first_ge hops hA)

/-- Settles O46: the effect is `exec_hlt`, and the state it leaves is not `Running`, so no step follows. -/
theorem hltHaltsAndAdvances : Obligations.HltHaltsAndAdvances := by
  refine ⟨fun c a b hc => ?_, rfl, exec_hlt, fun s t u h => ?_⟩
  · exact decode_code_of_not_isBitwise (m := .hlt) hc rfl a b
  · rw [exec_hlt] at h
    cases h
    exact step_ne_next_of_not_running (by simp) u

/-- Settles O48: a register operand names a register or is out of range, and LDI answers accordingly. -/
theorem ldiLoadsTheLiteral : Obligations.LdiLoadsTheLiteral :=
  ⟨fun _ a b hc => decode_code_of_not_isBitwise (m := .ldi) hc rfl a b, rfl, exec_ldi_registerByte,
    fun s _ _ hA => exec_of_first_register_ge rfl hA s⟩

/-- Settles O49: a register operand names a register or is out of range, and PRN answers accordingly; the
decoder drops the byte at pc+2. -/
theorem prnEmitsTheRegister : Obligations.PrnEmitsTheRegister :=
  ⟨fun _ a b hc => decode_code_of_not_isBitwise (m := .prn) hc rfl a b, rfl, exec_prn_registerByte,
    fun s _ hA => exec_of_first_register_ge rfl hA s⟩

end Sys2Proof.Machine
end

section
/-! PROOFS. 60_exceptions.md R184: the spec's list of checks, in its order, is what decides how a step ends. -/

namespace Sys2Proof

/-- 00_scope.md R7: the bound a pop checks lies in memory, so a pop that passes it reads memory. -/
theorem Config.spInit_le_memSize {c : Config} (hc : c.wf = true) : c.spInit.toNat ≤ c.memSize := by
  simp only [Config.wf, Config.spInitOk, Bool.and_eq_true, decide_eq_true_eq] at hc
  obtain ⟨⟨-, ⟨-, hle⟩, -⟩, -⟩ := hc
  exact hle

end Sys2Proof

namespace Sys2Proof.Machine

/-! ### The checks before the handler -/

/-- The fetch check reports the first of the three addresses that is not in memory. -/
theorem fetchFault_eq_some {s : State} {f : FaultCause} (h : fetchFault s = some f) :
    ∃ k ≤ 2, (∀ j < k, s.pc + j < s.cfg.memSize) ∧ s.cfg.memSize ≤ s.pc + k ∧
      f = .outOfRangeAccess .memory (s.pc + k) := by
  by_cases h0 : s.cfg.memSize ≤ s.pc
  · exact ⟨0, by omega, by omega, h0, by simpa [fetchFault, h0] using h.symm⟩
  by_cases h1 : s.cfg.memSize ≤ s.pc + 1
  · exact ⟨1, by omega, by omega, h1, by simpa [fetchFault, h0, h1] using h.symm⟩
  by_cases h2 : s.cfg.memSize ≤ s.pc + 2
  · exact ⟨2, by omega, by omega, h2, by simpa [fetchFault, h0, h1, h2] using h.symm⟩
  · simp [fetchFault, h0, h1, h2] at h

theorem fetchFault_eq_none {s : State} (h : fetchFault s = none) : s.pc + 2 < s.cfg.memSize := by
  simp only [fetchFault, Option.map_eq_none_iff, List.find?_eq_none, decide_eq_true_eq, not_le] at h
  exact h (s.pc + 2) (by simp)

theorem step_of_lookup {s : State} (hrun : s.run = .running) (hpc : s.pc + 2 < s.cfg.memSize)
    {m : Mnemonic} (hm : s.cfg.lookup (s.mem.read s.pc) = some m) :
    step s = exec (m.toInstr (s.mem.read (s.pc + 1)) (s.mem.read (s.pc + 2))) s := by
  refine step_of_running hrun ?_
  rw [State.nextInstr, State.fetch_eq_ok.mpr ⟨hpc, rfl⟩, bind_ok_left, State.decodeLatch,
    decode_of_lookup hm]

theorem registerFault_eq_none {i : Instr} (h : registerFault i = none) :
    ∀ r ∈ i.registerOperands, r.toNat < 8 := by
  simpa [registerFault] using h

/-! ### The handler's checks -/

section

variable {F : FaultCause → Prop} {s : State} {rA rB : Byte}

theorem answers_registerOperand_of_lt (hA : rA.toNat < 8) :
    Answers (fun a => rA = registerByte a) F (registerOperand rA) := by
  rw [registerOperand_of_lt hA]
  exact registerOperand_eq_ok.mp (registerOperand_of_lt hA)

theorem answers_registerPair_of_lt (hA : rA.toNat < 8) (hB : rB.toNat < 8) :
    Answers (fun p => rB = registerByte p.2) F (registerPair rA rB) :=
  (answers_registerOperand_of_lt hA).bind fun _ _ => (answers_registerOperand_of_lt hB).bind fun _ hb => hb

/-- DIV and MOD alone have a check: the value of their second register is not 0. -/
theorem answers_aluApply_handlerFault {m : Mnemonic} (hm : m ∈ aluMnemonics) (x : Byte) (b : Fin 8) :
    Answers (fun _ => handlerFault (m.toInstr rA (registerByte b)) s = none)
      (fun f => handlerFault (m.toInstr rA (registerByte b)) s = some f) (aluApply m x (s.reg b)) := by
  cases m with
  | div | mod =>
    simp only [aluApply, aluDiv, aluMod, Mnemonic.toInstr, handlerFault, State.getElem?_registerByte,
      Option.some.injEq]
    split
    case isTrue => rfl
    case isFalse => rfl
  | add | sub | mul | and | or | xor | not | shl | shr => rfl
  | _ => simp [aluMnemonics] at hm

/-- Opening a slot makes the first check of a push, SP = 0. -/
theorem answers_openSlot_handlerFault :
    Answers (fun slot =>
        s.sp.toNat ≠ 0 ∧ slot.sp.toNat = s.sp.toNat - 1 ∧ slot.cfg = s.cfg ∧ slot.run = s.run)
      (fun f => handlerFault (.push rA) s = some f) s.openSlot := by
  refine answers_iff.mpr ⟨fun slot hslot => ?_, fun f herror => ?_⟩
  · have hsp := State.sp_of_openSlot hslot
    obtain ⟨h0, rfl⟩ := State.openSlot_eq_ok.mp hslot
    exact ⟨fun h => h0 (BitVec.eq_of_toNat_eq h), hsp, rfl, rfl⟩
  · unfold State.openSlot at herror
    split at herror
    case isTrue h0 =>
      cases herror
      simp [handlerFault, h0]
    case isFalse => cases herror

/-- The store at the slot makes the second check of a push, the range check of the new SP. -/
theorem answers_memWrite_handlerFault {slot : State} (h0 : s.sp.toNat ≠ 0)
    (hsp : slot.sp.toNat = s.sp.toNat - 1) (hcfg : slot.cfg = s.cfg) (v : Byte) :
    Answers (fun t => handlerFault (.push rA) s = none ∧ t.run = slot.run)
      (fun f => handlerFault (.push rA) s = some f) (slot.memWrite slot.sp.toNat v) := by
  unfold State.memWrite
  rw [hsp, hcfg]
  split
  case isTrue h => exact ⟨by simp [handlerFault, h0, h], rfl⟩
  case isFalse h => simp [Answers, handlerFault, h0, Nat.not_lt.mp h]

/-- A pop checks SP against `SP_INIT` alone: below it, the read is in memory. -/
theorem answers_stackTop_handlerFault (hc : s.cfg.wf = true) :
    Answers (fun _ => handlerFault .ret s = none) (fun f => handlerFault .ret s = some f) s.stackTop := by
  unfold State.stackTop
  split
  case isTrue h => simp [Answers, handlerFault, h]
  case isFalse h =>
    have hmem : s.sp.toNat < s.cfg.memSize := (Nat.not_le.mp h).trans_le (Config.spInit_le_memSize hc)
    rw [State.memRead_of_lt hmem]
    simp [Answers, handlerFault, h]

end

/-! ### How a step ends (60_exceptions.md R184) -/

/-- The outcome is `finish` of a result that `check` decides: where it finds nothing, a state that runs on as
before or is halted; where it finds a fault, that fault. -/
def EndsByCheck (check : Option FaultCause) (s : State) (o : Host.Outcome State Fault Refusal) : Prop :=
  ∃ r, o = finish s r ∧
    Answers (fun t => check = none ∧ (t.run = s.run ∨ t.run = .halted)) (fun f => check = some f) r

section

variable {s : State} {i : Instr} {rA rB : Byte}

theorem endsByCheck_takeFault (s : State) (f : FaultCause) :
    EndsByCheck (some f) s (.next (s.takeFault f)) :=
  ⟨.error f, rfl, rfl⟩

theorem EndsByCheck.eq_takeFault {f : FaultCause} {o : Host.Outcome State Fault Refusal}
    (h : EndsByCheck (some f) s o) : o = .next (s.takeFault f) := by
  obtain ⟨r | t, rfl, hr⟩ := h
  · cases hr
    rfl
  · cases hr.1

theorem EndsByCheck.eq_next {o : Host.Outcome State Fault Refusal} (h : EndsByCheck none s o) :
    ∃ t, o = .next t ∧ (t.run = s.run ∨ t.run = .halted) := by
  obtain ⟨f | t, rfl, hr⟩ := h
  · cases hr
  · exact ⟨t, rfl, hr.2⟩

theorem endsByCheck_aluInstr {m : Mnemonic} (hm : m ∈ aluMnemonics) (hA : rA.toNat < 8)
    (hB : rB.toNat < 8) : EndsByCheck (handlerFault (m.toInstr rA rB) s) s (aluInstr m rA rB s) := by
  refine ⟨_, rfl, (answers_registerPair_of_lt hA hB).bind ?_⟩
  rintro ⟨a, b⟩ rfl
  exact (answers_aluApply_handlerFault hm _ b).bind fun _ hcheck => ⟨hcheck, .inl rfl⟩

theorem endsByCheck_branchIf {m : Mnemonic} {taken : Bool} (hA : rA.toNat < 8) :
    EndsByCheck none s (branchIf m taken rA s) :=
  ⟨_, rfl, (answers_registerOperand_of_lt hA).bind fun _ _ => ⟨rfl, .inl (by cases taken <;> rfl)⟩⟩

theorem endsByCheck_storeHandler {v : Fin 8 → State → Byte} {k : Fin 8 → State → State}
    (hk : ∀ a u, (k a u).run = u.run) (hA : rA.toNat < 8) :
    EndsByCheck (handlerFault (.push rA) s) s (finish s (storeHandler rA v k s)) := by
  refine ⟨_, rfl, (answers_registerOperand_of_lt hA).bind fun a _ => answers_openSlot_handlerFault.bind ?_⟩
  rintro slot ⟨h0, hsp, hcfg, hrun⟩
  refine (answers_memWrite_handlerFault h0 hsp hcfg _).bind ?_
  rintro stored ⟨hcheck, hstored⟩
  exact ⟨hcheck, .inl ((hk a stored).trans (hstored.trans hrun))⟩

/-- 60_exceptions.md R184, point 4: past the register check, the handler's own checks decide how an
instruction ends. -/
theorem exec_endsByCheck (hc : s.cfg.wf = true) (hvalid : ∀ r ∈ i.registerOperands, r.toNat < 8) :
    EndsByCheck (handlerFault i s) s (exec i s) := by
  cases i with
  | nop => exact ⟨.ok _, rfl, rfl, .inl rfl⟩
  | hlt | iret => exact ⟨.ok _, rfl, rfl, .inr rfl⟩
  | ret => exact ⟨_, rfl, (answers_stackTop_handlerFault hc).bind fun _ hcheck => ⟨hcheck, .inl rfl⟩⟩
  | pop rA =>
    have hA : rA.toNat < 8 := hvalid rA (by simp [Instr.registerOperands])
    exact ⟨_, rfl, (answers_registerOperand_of_lt hA).bind fun _ _ =>
      (answers_stackTop_handlerFault hc).bind fun _ hcheck => ⟨hcheck, .inl rfl⟩⟩
  | push rA | call rA =>
    exact endsByCheck_storeHandler (fun _ _ => rfl) (hvalid rA (by simp [Instr.registerOperands]))
  | prn rA | ldi rA | not rA =>
    have hA : rA.toNat < 8 := hvalid rA (by simp [Instr.registerOperands])
    exact ⟨_, rfl, (answers_registerOperand_of_lt hA).bind fun _ _ => ⟨rfl, .inl rfl⟩⟩
  | jmp rA | jeq rA | jne rA =>
    exact endsByCheck_branchIf (hvalid rA (by simp [Instr.registerOperands]))
  | cmp rA rB =>
    obtain ⟨hA, hB⟩ : rA.toNat < 8 ∧ rB.toNat < 8 := by simpa [Instr.registerOperands] using hvalid
    exact ⟨_, rfl, (answers_registerPair_of_lt hA hB).bind fun _ _ => ⟨rfl, .inl rfl⟩⟩
  | add rA rB | sub rA rB | mul rA rB | div rA rB | mod rA rB | and rA rB | or rA rB | xor rA rB
  | shl rA rB | shr rA rB =>
    obtain ⟨hA, hB⟩ : rA.toNat < 8 ∧ rB.toNat < 8 := by simpa [Instr.registerOperands] using hvalid
    exact endsByCheck_aluInstr (by decide) hA hB

/-- 60_exceptions.md R184: the first check of the list that fails decides how a step ends. -/
theorem step_endsByCheck (hc : s.cfg.wf = true) (hrun : s.run = .running) :
    EndsByCheck (firstFault s) s (step s) := by
  unfold firstFault
  cases hfetch : fetchFault s with
  | some f =>
    obtain ⟨k, hk, hbefore, hbad, rfl⟩ := fetchFault_eq_some hfetch
    rw [step_of_first_bad hrun hk hbefore hbad]
    exact endsByCheck_takeFault s _
  | none =>
    have hpc := fetchFault_eq_none hfetch
    cases hlookup : s.cfg.lookup (s.mem.read s.pc) with
    | none =>
      rw [step_of_lookup_none hrun hpc hlookup]
      exact endsByCheck_takeFault s _
    | some m =>
      rw [step_of_lookup hrun hpc hlookup]
      dsimp only
      cases hreg : registerFault (m.toInstr (s.mem.read (s.pc + 1)) (s.mem.read (s.pc + 2))) with
      | some f =>
        rw [exec_of_registerFault s hreg]
        exact endsByCheck_takeFault s f
      | none => exact exec_endsByCheck hc (registerFault_eq_none hreg)

end

/-- Settles O16: `step_endsByCheck`, read where `firstFault` finds a fault and where it finds none. -/
theorem firstFaultByPriority : Obligations.FirstFaultByPriority := by
  intro s hc hrun
  have hends := step_endsByCheck hc hrun
  constructor
  · intro f hf
    rw [hf] at hends
    exact hends.eq_takeFault
  · intro hnone
    rw [hnone] at hends
    obtain ⟨t, ht, hkept | hhalted⟩ := hends.eq_next
    · exact ⟨t, ht, .inl (hkept.trans hrun)⟩
    · exact ⟨t, ht, .inr hhalted⟩

end Sys2Proof.Machine
end

section
/-! PROOFS. 70_reset_and_hazards.md: the images `boot` refuses. -/

namespace Sys2Proof.Machine

/-- What `boot` can do (R204): it refuses, or the configuration is one the spec admits, the image fits in
memory and its values are bytes. `boot_of_admitted` says what it answers then. -/
theorem boot_refused_or_admitted (c : Config) (image : List Nat) :
    (∃ r, boot c image = .refused r) ∨
      (c.wf = true ∧ image.length ≤ c.memSize ∧ ∀ v ∈ image, v ≤ 255) := by
  unfold boot
  split
  · exact .inl ⟨_, rfl⟩
  next hwf =>
    split
    · exact .inl ⟨_, rfl⟩
    next hlen =>
      split
      · exact .inl ⟨_, rfl⟩
      next hval => exact .inr ⟨by simpa using hwf, Nat.le_of_not_lt hlen, by simpa using hval⟩

/-- Settles O23: by `boot_refused_or_admitted`, an image that is not refused meets both conditions. -/
theorem bootRefusesBadImages : Obligations.BootRefusesBadImages := by
  intro c image hbad
  obtain hrefused | ⟨-, hlen, hval⟩ := boot_refused_or_admitted c image
  · exact hrefused
  · obtain htooLong | ⟨v, hv, hlarge⟩ := hbad
    · exact absurd htooLong (Nat.not_lt.mpr hlen)
    · exact absurd hlarge (Nat.not_lt.mpr (hval v hv))

end Sys2Proof.Machine
end

section
/-! PROOFS. 30_encoding.md: the encoder and the decoder undo each other, the lengths, the operand bytes a
format does not use, and the default map. -/

namespace Sys2Proof

/-! ### The shape of an encoding (30_encoding.md R70, R74, R75) -/

/-- The shape of an encoding, for whatever instruction stands there. -/
theorem Laws.EncodeShape.of_instr : ∀ i : Instr, Statement i
  | .nop => nop
  | .hlt => hlt
  | .ret => ret
  | .iret => iret
  | .push rA => push rA
  | .pop rA => pop rA
  | .prn rA => prn rA
  | .call rA imm => call rA imm
  | .jmp rA => jmp rA
  | .jeq rA => jeq rA
  | .jne rA => jne rA
  | .ldi rA imm => ldi rA imm
  | .add rA rB => add rA rB
  | .sub rA rB => sub rA rB
  | .mul rA rB => mul rA rB
  | .div rA rB => div rA rB
  | .mod rA rB => mod rA rB
  | .cmp rA rB => cmp rA rB
  | .and rA rB => and rA rB
  | .or rA rB => or rA rB
  | .xor rA rB => xor rA rB
  | .not rA => not rA
  | .shl rA rB => shl rA rB
  | .shr rA rB => shr rA rB

theorem encode_length_eq_arity (c : Config) (i : Instr) : (encode c i).length = 1 + i.mnemonic.arity := by
  obtain ⟨hlength, -⟩ := Laws.EncodeShape.of_instr i c 0 0
  exact hlength

/-- The table makes an instruction again from its operand bytes, whatever bytes fill the places its format
does not use. -/
theorem Instr.toInstr_operandBytes (i : Instr) (pa pb : Byte) :
    i.mnemonic.toInstr (i.operandBytes.getD 0 pa) (i.operandBytes.getD 1 pb) = i := by
  obtain ⟨-, hagain⟩ := Laws.EncodeShape.of_instr i Config.default pa pb
  exact hagain

/-- An instruction made from two bytes keeps as many of them as its format uses. -/
theorem Mnemonic.operandBytes_toInstr (m : Mnemonic) (a b : Byte) :
    (m.toInstr a b).operandBytes = [a, b].take m.arity := by
  cases m <;> rfl

/-- A list read from the bytes it begins: where it ends, they stand in for it. -/
theorem getD_of_getElem?_append {l pad : List Byte} {k : Nat} {v : Byte} (h : (l ++ pad)[k]? = some v) :
    l.getD k v = v := by
  rcases Nat.lt_or_ge k l.length with hk | hk
  · rw [List.getElem?_append_left hk] at h
    rw [List.getD_eq_getElem?_getD, h, Option.getD_some]
  · exact List.getD_eq_default _ _ hk

/-! ### Decode and encode (30_encoding.md R70, R78) -/

/-- Settles O1: the opcode byte looks up the mnemonic (`decode_code`), and the bytes after it are the operand
bytes as far as the format has any, which `Instr.toInstr_operandBytes` asks for. -/
theorem decodeOfEncode : Obligations.DecodeOfEncode := by
  intro c i pad op a b rest hc henabled hbytes
  obtain ⟨rfl, hoperands⟩ : c.opMap.code i.mnemonic = op ∧ i.operandBytes ++ pad = a :: b :: rest :=
    List.cons_eq_cons.mp hbytes
  have ha : i.operandBytes.getD 0 a = a := getD_of_getElem?_append (by rw [hoperands]; rfl)
  have hb : i.operandBytes.getD 1 b = b := getD_of_getElem?_append (by rw [hoperands]; rfl)
  have hagain := i.toInstr_operandBytes a b
  rw [ha, hb] at hagain
  rw [decode_code hc henabled, hagain]

/-- Settles O2: the lookup is sound, and the bytes the format does not use are the padding. -/
theorem encodeOfDecode : Obligations.EncodeOfDecode := by
  intro c op a b i h
  obtain ⟨m, hm, rfl⟩ := decode_ok h
  obtain ⟨henabled, rfl⟩ := Config.lookup_sound hm
  rw [Mnemonic.mnemonic_toInstr]
  refine ⟨henabled, [a, b].drop m.arity, ?_⟩
  rw [encode, Mnemonic.mnemonic_toInstr, Mnemonic.operandBytes_toInstr, List.cons_append,
    List.take_append_drop]

/-- Settles O7: the instruction is made again from the operand bytes it kept, with the new bytes in the places
of those it did not. -/
theorem unusedOperandBytesAreIgnored : Obligations.UnusedOperandBytesAreIgnored := by
  intro c op a b i h
  obtain ⟨m, hm, rfl⟩ := decode_ok h
  have hagain := (m.toInstr a b).toInstr_operandBytes
  simp only [Mnemonic.mnemonic_toInstr, Mnemonic.operandBytes_toInstr] at hagain ⊢
  constructor
  · intro harity a' b'
    rw [harity] at hagain
    exact (decode_of_lookup hm a' b').trans (congrArg Except.ok (hagain a' b'))
  · intro harity b'
    rw [harity] at hagain
    exact (decode_of_lookup hm a b').trans (congrArg Except.ok (hagain a b'))

/-- Settles O8: `encode_length_eq_arity`, and the arity column of 30_encoding.md R75 row by row. -/
theorem lengthIsOnePlusArity : Obligations.LengthIsOnePlusArity :=
  ⟨encode_length_eq_arity, fun m => by cases m <;> decide⟩

/-! ### The default map (30_encoding.md R76, R79) -/

/-- The legal opcode bytes are the bytes of the enabled mnemonics. -/
theorem Config.isSome_lookup_iff {c : Config} {op : Byte} :
    (c.lookup op).isSome = true ↔ op ∈ c.enabledMnemonics.map c.opMap.code := by
  simp [Config.lookup, List.find?_isSome]

/-- Settles O5: the bytes of the enabled mnemonics, in the table's order without the group and in the
statement's order with it. -/
theorem defaultLegalOpcodes : Obligations.DefaultLegalOpcodes := by
  intro op
  rw [Config.isSome_lookup_iff, Config.isSome_lookup_iff]
  exact ⟨Iff.rfl, List.Perm.mem_iff (by decide)⟩

/-- Settles O6, by decoding each of the nine words. -/
theorem defaultWordsDecode : Obligations.DefaultWordsDecode :=
  ⟨rfl, rfl, rfl, rfl, rfl, rfl, rfl, rfl, rfl⟩

end Sys2Proof
end

section
/-! PROOFS. What an instruction can do to the state, said once; from it each group's frame, that only HLT
and IRET halt, that the configuration stays, and the invariant of 10_state.md. -/

namespace Sys2Proof.Machine

/-! ### The effect of an instruction -/

/-- Everything a meaning can do where it answers a next state: the fault taken, or the effect of its unit on
the state it began in. -/
inductive Effect (i : Instr) (s : State) : State → Prop
  | faulted (f : FaultCause) : Effect i s (s.takeFault f)
  | advanced : Effect i s (s.advance i.mnemonic)
  | halted (hi : i.mnemonic ∈ [Mnemonic.hlt, .iret]) : Effect i s (s.halt.advance i.mnemonic)
  | emitted (v : Byte) : Effect i s ((s.emit v).advance i.mnemonic)
  | compared (a b : Byte) : Effect i s ((s.setFlags (compareFlags a b)).advance i.mnemonic)
  | jumped (v : Byte) : Effect i s (s.jump v)
  | registerWritten (hi : i.mnemonic ∈ Mnemonic.ldi :: aluMnemonics) (a : Fin 8) (v : Byte)
      (ha : i.operandBytes.head? = some (registerByte a)) : Effect i s ((s.setReg a v).advance i.mnemonic)
  | stored (hi : i.mnemonic ∈ [Mnemonic.push, .call]) (slot : State) (hslot : s.openSlot = .ok slot)
      (hmem : slot.sp.toNat < s.cfg.memSize) (v : Byte) (p : Nat) (hp : p = s.pc + 2 ∨ p ≤ 255) :
      Effect i s { slot with mem := slot.mem.write slot.sp.toNat v, pc := p }
  | popped (hi : i.mnemonic = .pop) (a : Fin 8) (v : Byte)
      (ha : i.operandBytes.head? = some (registerByte a)) :
      Effect i s ((s.setReg a v).closeSlot.advance i.mnemonic)
  | returned (hi : i.mnemonic = .ret) (v : Byte) : Effect i s (s.jump v).closeSlot

section

variable {i : Instr} {s t : State} {rA rB : Byte} {m : Mnemonic}

theorem byte_toNat_le (v : Byte) : v.toNat ≤ 255 := Nat.le_of_lt_succ v.isLt

theorem effect_aluInstr (h : aluInstr m rA rB s = .next t) (hm : m ∈ Mnemonic.ldi :: aluMnemonics)
    (hi : i.mnemonic = m) (hA : i.operandBytes.head? = some rA) : Effect i s t := by
  subst hi
  rcases aluInstr_next h with ⟨f, rfl⟩ | ⟨a, b, v, rfl, -, -, rfl⟩
  · exact .faulted f
  · exact .registerWritten hm a v hA

theorem effect_branchIf {taken : Bool} (hi : i.mnemonic = m) (h : branchIf m taken rA s = .next t) :
    Effect i s t := by
  subst hi
  rcases branchIf_next h with ⟨f, rfl⟩ | ⟨a, -, rfl⟩
  · exact .faulted f
  · cases taken with
    | true => exact .jumped _
    | false => exact .advanced

/-- Every meaning that answers a next state has one of the effects. -/
theorem exec_effect (h : exec i s = .next t) : Effect i s t := by
  cases i with
  | nop => cases h; exact .advanced
  | hlt | iret => cases h; exact .halted (by decide)
  | ret =>
    rcases execRet_next h with ⟨f, rfl⟩ | ⟨v, -, rfl⟩
    · exact .faulted f
    · exact .returned rfl v
  | pop =>
    rcases execPop_next h with ⟨f, rfl⟩ | ⟨a, v, rfl, -, rfl⟩
    · exact .faulted f
    · exact .popped rfl a v rfl
  | push =>
    rcases execPush_next h with ⟨f, rfl⟩ | ⟨a, slot, -, hslot, hmem, rfl⟩
    · exact .faulted f
    · have hpc : slot.pc = s.pc := by rw [(State.openSlot_eq_ok.mp hslot).2, State.setReg_pc]
      exact .stored List.mem_cons_self slot hslot hmem _ _ (.inl (congrArg (· + 2) hpc))
  | call =>
    rcases execCall_next h with ⟨f, rfl⟩ | ⟨a, slot, -, hslot, hmem, rfl⟩
    · exact .faulted f
    · exact .stored (List.mem_cons_of_mem _ List.mem_cons_self) slot hslot hmem _ _ (.inr (byte_toNat_le _))
  | prn =>
    rcases execPrn_next h with ⟨f, rfl⟩ | ⟨a, -, rfl⟩
    · exact .faulted f
    · exact .emitted _
  | ldi =>
    rcases execLdi_next h with ⟨f, rfl⟩ | ⟨a, rfl, rfl⟩
    · exact .faulted f
    · exact .registerWritten List.mem_cons_self a _ rfl
  | cmp =>
    rcases execCmp_next h with ⟨f, rfl⟩ | ⟨a, b, -, -, rfl⟩
    · exact .faulted f
    · exact .compared _ _
  | jmp | jeq | jne => exact effect_branchIf rfl h
  | add | sub | mul | div | mod | and | or | xor | shl | shr => exact effect_aluInstr h (by decide) rfl rfl
  | not =>
    rcases aluInstrOne_next h with ⟨f, rfl⟩ | ⟨a, v, rfl, -, rfl⟩
    · exact .faulted f
    · exact .registerWritten (List.mem_cons_of_mem _ (by simp [Instr.mnemonic, aluMnemonics])) a v rfl

/-! ### What an instruction keeps -/

/-- An opened slot differs from the state in the stack pointer alone. -/
theorem State.openSlot_frame {slot : State} (h : s.openSlot = .ok slot) :
    slot.cfg = s.cfg ∧ slot.mem = s.mem ∧ slot.fl = s.fl ∧ slot.run = s.run ∧
      ∀ r : Fin 8, r ≠ 7 → slot.x[r] = s.x[r] := by
  obtain ⟨-, rfl⟩ := State.openSlot_eq_ok.mp h
  exact ⟨rfl, rfl, rfl, rfl, fun r hr => State.reg_setReg_other s _ hr⟩

theorem exec_keeps_cfg (h : exec i s = .next t) : t.cfg = s.cfg := by
  cases exec_effect h with
  | stored _ slot hslot =>
    obtain ⟨hcfg, -⟩ := State.openSlot_frame hslot
    exact hcfg
  | _ => rfl

/-- An instruction runs on, takes a fault, or halts by HLT or IRET. -/
theorem exec_run (h : exec i s = .next t) :
    t.run = s.run ∨ (∃ f, t.run = .faulted f) ∨ (i.mnemonic ∈ [Mnemonic.hlt, .iret] ∧ t.run = .halted) := by
  cases exec_effect h with
  | faulted f => exact .inr (.inl ⟨f, rfl⟩)
  | halted hi => exact .inr (.inr ⟨hi, rfl⟩)
  | stored _ slot hslot =>
    obtain ⟨-, -, -, hrun, -⟩ := State.openSlot_frame hslot
    exact .inl hrun
  | _ => exact .inl rfl

theorem exec_run_of_ne_halt (hi : i.mnemonic ∉ [Mnemonic.hlt, .iret]) (h : exec i s = .next t) :
    t.run = s.run ∨ ∃ f, t.run = .faulted f := by
  rcases exec_run h with hkept | hfaulted | ⟨hhalt, -⟩
  · exact .inl hkept
  · exact .inr hfaulted
  · exact absurd hhalt hi

/-- Only PUSH and CALL change memory, and only where the slot opens. -/
theorem exec_keeps_mem (hi : i.mnemonic ∈ [Mnemonic.push, .call] → ∀ slot, s.openSlot ≠ .ok slot)
    (h : exec i s = .next t) : t.mem = s.mem := by
  cases exec_effect h with
  | stored hstore slot hslot => exact absurd hslot (hi hstore slot)
  | _ => rfl

/-- A register is kept that is neither the stack pointer of the stack unit's four nor the first operand of an
instruction with a register result. -/
theorem exec_keeps_reg {r : Fin 8} (hsp : r = 7 → i.mnemonic ∉ [Mnemonic.push, .call, .pop, .ret])
    (hres : i.operandBytes.head? = some (registerByte r) →
      i.mnemonic ∉ Mnemonic.pop :: Mnemonic.ldi :: aluMnemonics)
    (h : exec i s = .next t) : t.x[r] = s.x[r] := by
  have hclose : ∀ u : State, r ≠ 7 → u.closeSlot.x[r] = u.x[r] := fun u hr => State.reg_setReg_other u _ hr
  cases exec_effect h with
  | registerWritten hi a v ha =>
    refine State.reg_setReg_other s v ?_
    rintro rfl
    exact hres ha (List.mem_cons_of_mem _ hi)
  | stored hi slot hslot =>
    obtain ⟨-, -, -, -, hx⟩ := State.openSlot_frame hslot
    refine hx r fun hr => hsp hr ?_
    rcases List.mem_pair.mp hi with hi | hi <;> simp [hi]
  | popped hi a v ha =>
    have hra : r ≠ a := by
      rintro rfl
      exact hres ha (by simp [hi])
    exact (hclose (s.setReg a v) fun hr => hsp hr (by simp [hi])).trans (State.reg_setReg_other s v hra)
  | returned hi v => exact hclose (s.jump v) fun hr => hsp hr (by simp [hi])
  | _ => rfl

/-- Every instruction but PRN carries `OUT` along. -/
theorem exec_keeps_out (hprn : i.mnemonic ≠ .prn) (h : exec i s = .next t) : t.out = s.out := by
  rcases exec_out h with hout | ⟨r, rfl, -⟩
  · exact hout
  · exact absurd rfl hprn

end

/-! ### The frames -/

/-- Groups of mnemonics with no common member. -/
theorem notMem_of_group {l l' : List Mnemonic} {m : Mnemonic} (h : m ∈ l) (hdisjoint : ∀ n ∈ l, n ∉ l') :
    m ∉ l' := hdisjoint m h

/-- Settles O51: a register that is not the destination by `exec_keeps_reg`, the rest by the lemma of its
field. -/
theorem registerResultFrame : Obligations.RegisterResultFrame := by
  intro s t i hi h
  have hcmp : i.mnemonic ≠ .cmp := fun e => absurd (e ▸ hi) (by decide)
  have hprn : i.mnemonic ≠ .prn := fun e => absurd (e ▸ hi) (by decide)
  have hmem : t.mem = s.mem := exec_keeps_mem (fun hpush => absurd hpush (notMem_of_group hi (by decide))) h
  refine ⟨fun r hr => ?_, exec_keeps_fl hcmp h, exec_keeps_out hprn h, exec_keeps_cfg h,
    fun a => by rw [hmem], exec_run_of_ne_halt (notMem_of_group hi (by decide)) h⟩
  exact exec_keeps_reg (fun _ => notMem_of_group hi (by decide)) (fun e => absurd e hr) h

/-- Settles O52: no register but SP by `exec_keeps_reg`; where a slot opens the store is at its SP, and where
none does `exec_keeps_mem` keeps memory. -/
theorem storingFrame : Obligations.StoringFrame := by
  intro s t i hi hm h
  have hcmp : i.mnemonic ≠ .cmp := fun e => absurd (e ▸ hi) (by decide)
  have hprn : i.mnemonic ≠ .prn := fun e => absurd (e ▸ hi) (by decide)
  refine ⟨fun r hr => ?_, exec_keeps_fl hcmp h, exec_keeps_out hprn h, exec_keeps_cfg h,
    fun slot hslot a ha => ?_, fun hnone a => ?_, exec_run_of_ne_halt (notMem_of_group hi (by decide)) h⟩
  · exact exec_keeps_reg (fun e => absurd e hr) (fun _ => notMem_of_group hi (by decide)) h
  · rw [State.sp_of_openSlot hslot] at ha
    exact exec_read_of_pushes hi hm h ha
  · rw [exec_keeps_mem (fun _ => hnone) h]

/-- Settles O53: the registers by `exec_keeps_reg`, the rest by the lemma of its field. -/
theorem poppingFrame : Obligations.PoppingFrame := by
  intro s t i hi h
  have hcmp : i.mnemonic ≠ .cmp := fun e => absurd (e ▸ hi) (by decide)
  have hprn : i.mnemonic ≠ .prn := fun e => absurd (e ▸ hi) (by decide)
  have hmem : t.mem = s.mem := exec_keeps_mem (fun hpush => absurd hpush (notMem_of_group hi (by decide))) h
  refine ⟨fun r hsp hr => ?_, exec_keeps_fl hcmp h, exec_keeps_out hprn h, exec_keeps_cfg h,
    fun a => by rw [hmem], exec_run_of_ne_halt (notMem_of_group hi (by decide)) h⟩
  exact exec_keeps_reg (fun e => absurd e hsp) (fun e => absurd e hr) h

/-- Settles O54: every register by `exec_keeps_reg`, the rest by the lemma of its field. -/
theorem noRegisterFrame : Obligations.NoRegisterFrame := by
  intro s t i hi h
  have hmem : t.mem = s.mem := exec_keeps_mem (fun hpush => absurd hpush (notMem_of_group hi (by decide))) h
  have hreg : ∀ r : Fin 8, t.x[r] = s.x[r] := fun r =>
    exec_keeps_reg (fun _ => notMem_of_group hi (by decide)) (fun _ => notMem_of_group hi (by decide)) h
  exact ⟨Vector.ext fun k hk => hreg ⟨k, hk⟩, exec_keeps_cfg h, fun a => by rw [hmem],
    fun hcmp => exec_keeps_fl hcmp h, fun hprn => exec_keeps_out hprn h, exec_run h⟩

/-! ### The step -/

section

variable {s t : State} {i : Instr} {f : FaultCause}

theorem State.memRead_eq_error {a : Nat} (h : s.memRead a = .error f) :
    f = .outOfRangeAccess .memory a := by
  rcases Nat.lt_or_ge a s.cfg.memSize with ha | ha
  · cases (State.memRead_of_lt ha).symm.trans h
  · cases (State.memRead_of_ge ha).symm.trans h
    rfl

/-- 40_engine.md R91: fetch reports an address outside memory and nothing else. -/
theorem State.fetch_eq_error (h : s.fetch = .error f) : ∃ a, f = .outOfRangeAccess .memory a := by
  rcases bind_eq_error.mp h with h0 | ⟨op, -, h⟩
  · exact ⟨_, State.memRead_eq_error h0⟩
  rcases bind_eq_error.mp h with h1 | ⟨a, -, h⟩
  · exact ⟨_, State.memRead_eq_error h1⟩
  rcases bind_eq_error.mp h with h2 | ⟨b, -, h⟩
  · exact ⟨_, State.memRead_eq_error h2⟩
  · cases h

/-- 40_engine.md R94: decode reports an unknown opcode byte and nothing else. -/
theorem State.decodeLatch_eq_error {l : Latch} (h : s.decodeLatch l = .error f) :
    ∃ op, f = .unknownOpcode op := by
  unfold State.decodeLatch at h
  split at h <;> cases h
  exact ⟨_, rfl⟩

/-- An instruction runs only where its three fetch addresses are in memory. -/
theorem State.pc_of_nextInstr (h : s.nextInstr = .ok i) : s.pc + 2 < s.cfg.memSize := by
  obtain ⟨l, hfetch, -⟩ := bind_eq_ok.mp h
  obtain ⟨hpc, -⟩ := State.fetch_eq_ok.mp hfetch
  exact hpc

end

/-- Settles O12: what decodes is in the table, and the step runs it. -/
theorem stepRunsTheDecodedInstruction : Obligations.StepRunsTheDecodedInstruction := by
  intro s i hrun hpc hdecode
  obtain ⟨m, hm, rfl⟩ := decode_ok hdecode
  exact step_of_lookup hrun hpc hm

/-- Settles O13: a step that answers began in `Running`; and there fetch and decode answer a fault, which is
taken, or an instruction, whose meaning is `finish` of something. -/
theorem stepExistsExactlyWhenRunning : Obligations.StepExistsExactlyWhenRunning := by
  intro s
  constructor
  · rintro ⟨t, h⟩
    obtain ⟨hrun, -⟩ := step_next h
    exact hrun
  · intro hrun
    cases hi : s.nextInstr with
    | error f => exact ⟨_, step_of_error hrun hi⟩
    | ok i =>
      rw [step_of_running hrun hi]
      obtain ⟨r, hr, -⟩ := exec_endsAs i s
      rw [hr]
      exact exists_finish_eq_next s r

/-- Settles O58: a fault taken keeps the configuration, and so does every instruction. -/
theorem stepKeepsTheConfiguration : Obligations.StepKeepsTheConfiguration := by
  intro s t h
  obtain ⟨-, ⟨f, -, rfl⟩ | ⟨i, -, hexec⟩⟩ := step_next h
  · rfl
  · exact exec_keeps_cfg hexec

/-- Settles O18: by `exec_run` an instruction that halts a running engine is HLT or IRET; a halted engine
reaches itself alone. -/
theorem onlyHltAndIretHalt : Obligations.OnlyHltAndIretHalt := by
  refine ⟨fun s t h hhalted => ?_, fun s hs t h => h.eq_of_not_running (by simp [hs])⟩
  obtain ⟨hrun, ⟨f, -, rfl⟩ | ⟨i, hi, hexec⟩⟩ := step_next h
  · cases hhalted
  · rcases exec_run hexec with hkept | ⟨f, hfaulted⟩ | ⟨hmnemonic, -⟩
    · cases hrun.symm.trans (hkept.symm.trans hhalted)
    · cases hfaulted.symm.trans hhalted
    · rw [hi]
      cases i with
      | hlt => exact .inl rfl
      | iret => exact .inr rfl
      | _ => simp [Instr.mnemonic] at hmnemonic

/-! ### `UnsupportedOperation` (41_alu.md R115) -/

/-- No instruction ends in `UnsupportedOperation`: it is neither a register fault nor a handler's. -/
theorem not_isOf_unsupportedOperation (i : Instr) : ¬FaultCause.IsOf i .unsupportedOperation := by
  rintro (hreg | hhandler)
  · simp [registerFault] at hreg
  · cases hhandler

/-- Settles O17: the faults of the eleven operations are those of an instruction (`answers_aluApply`), and the
other tags answer by definition; a step takes a fault of fetch, of decode or of an instruction. -/
theorem unsupportedOperationIsNeverRaised : Obligations.UnsupportedOperationIsNeverRaised := by
  refine ⟨fun m a b => ⟨fun h hm => ?_, fun hm => ?_⟩, fun s t h hfault => ?_⟩
  · obtain ⟨-, hfaults⟩ := answers_iff.mp (answers_aluApply (i := .nop) hm a b)
    exact not_isOf_unsupportedOperation .nop (hfaults _ h)
  · cases m with
    | add | sub | mul | div | mod | and | or | xor | not | shl | shr => exact absurd (by decide) hm
    | _ => rfl
  · obtain ⟨hrun, ⟨f, hf, rfl⟩ | ⟨i, -, hexec⟩⟩ := step_next h
    · cases hfault
      rcases bind_eq_error.mp hf with hfetch | ⟨l, -, hdecode⟩
      · obtain ⟨a, ha⟩ := State.fetch_eq_error hfetch
        cases ha
      · obtain ⟨op, hop⟩ := State.decodeLatch_eq_error hdecode
        cases hop
    · obtain ⟨-, hof⟩ := exec_faulted hrun hexec hfault
      exact not_isOf_unsupportedOperation i hof

/-! ### The invariant (10_state.md sections 3, 4 and 6) -/

section

variable {s t : State} {i : Instr} {c : Config} {image : List Nat}

theorem Mnemonic.arity_le_two (m : Mnemonic) : m.arity ≤ 2 := by
  cases m <;> decide

/-- The engine's advance from a fetched instruction ends at most one past memory. -/
theorem advance_le_bound (h : s.pc + 2 < s.cfg.memSize) (m : Mnemonic) :
    s.pc + 1 + m.arity ≤ max s.cfg.memSize 255 := by
  have := Mnemonic.arity_le_two m
  omega

/-- An instruction fetched from memory keeps the invariant. -/
theorem State.Inv.of_exec (hs : s.Inv) (hpc : s.pc + 2 < s.cfg.memSize) (h : exec i s = .next t) : t.Inv := by
  obtain ⟨hcfg, hmem, hbelow, hbound, hfl⟩ := hs
  have hadvance := advance_le_bound hpc i.mnemonic
  have hjump : ∀ v : Byte, v.toNat ≤ max s.cfg.memSize 255 := fun v =>
    (byte_toNat_le v).trans (le_max_right _ _)
  cases exec_effect h with
  | faulted f => exact ⟨hcfg, hmem, hbelow, hbound, hfl⟩
  | advanced | halted | emitted | registerWritten | popped => exact ⟨hcfg, hmem, hbelow, hadvance, hfl⟩
  | compared a b => exact ⟨hcfg, hmem, hbelow, hadvance, .inr (compareFlags_oneHot a b)⟩
  | jumped v | returned _ v => exact ⟨hcfg, hmem, hbelow, hjump v, hfl⟩
  | stored _ slot hslot hsp v p hp =>
    obtain ⟨hslotCfg, hslotMem, hslotFl, -⟩ := State.openSlot_frame hslot
    refine ⟨?_, ?_, ?_, ?_, ?_⟩
    · rwa [hslotCfg]
    · rw [hslotMem]
      exact Memory.wf_write hmem _ v
    · rw [hslotCfg, hslotMem]
      exact Memory.below_write hbelow hsp v
    · rw [hslotCfg]
      change p ≤ max s.cfg.memSize 255
      omega
    · rwa [hslotFl]

theorem State.Inv.of_step (hs : s.Inv) (h : step s = .next t) : t.Inv := by
  obtain ⟨-, ⟨f, -, rfl⟩ | ⟨i, hi, hexec⟩⟩ := step_next h
  · obtain ⟨hcfg, hmem, hbelow, hbound, hfl⟩ := hs
    exact ⟨hcfg, hmem, hbelow, hbound, hfl⟩
  · exact hs.of_exec (State.pc_of_nextInstr hi) hexec

/-- What holds at the start of a run and is kept by every step holds in every state reached. -/
theorem Reaches.keeps {P : State → Prop} (hstep : ∀ u v, P u → step u = .next v → P v)
    (h : Reaches s t) (hs : P s) : P t := by
  induction h with
  | start => exact hs
  | next _ stepped ih => exact hstep _ _ ih stepped

/-- The reset values of an admitted configuration meet the invariant, with any bytes that fit loaded. -/
theorem inv_resetWith_load (hc : c.wf = true) {bs : List Byte} (hlen : bs.length ≤ c.memSize) :
    State.Inv { State.resetWith c with mem := Memory.load [] 0 bs } :=
  ⟨hc, Memory.wf_load Memory.wf_nil 0 bs,
    Memory.below_load (Memory.below_nil c.memSize) (by rwa [Nat.zero_add]), Nat.zero_le _, .inl rfl⟩

/-- What a booted state is. -/
theorem boot_eq_next (h : boot c image = .next s) :
    c.wf = true ∧ image.length ≤ c.memSize ∧
      s = { State.resetWith c with mem := Memory.load [] 0 (image.map (BitVec.ofNat 8)) } := by
  rcases boot_refused_or_admitted c image with ⟨r, hr⟩ | ⟨hc, hlen, hval⟩
  · cases hr.symm.trans h
  · cases (boot_of_admitted hc hlen hval).symm.trans h
    exact ⟨hc, hlen, rfl⟩

theorem inv_of_boot (h : boot c image = .next s) : s.Inv := by
  obtain ⟨hc, hlen, rfl⟩ := boot_eq_next h
  exact inv_resetWith_load hc (by rwa [List.length_map])

end

/-- Settles O56: a fault taken keeps every field the invariant speaks of, and an instruction runs only where
its fetch addresses are in memory, from where `State.Inv.of_exec`. -/
theorem stepKeepsTheInvariant : Obligations.StepKeepsTheInvariant := fun _ _ hs h => hs.of_step h

/-- Settles O55: reset is the default configuration with nothing loaded, a booted state one with its image. -/
theorem resetMeetsTheInvariant : Obligations.ResetMeetsTheInvariant :=
  ⟨inv_resetWith_load (c := Config.default) (bs := []) (by decide) (Nat.zero_le _),
    fun _ _ _ h => inv_of_boot h⟩

/-- Settles O57: the invariant and the configuration hold after boot and are kept by every step. -/
theorem bootedRunsKeepTheInvariant : Obligations.BootedRunsKeepTheInvariant := by
  intro c image s t hboot hreach
  have hinv : t.Inv := hreach.keeps (fun _ _ hu h => hu.of_step h) (inv_of_boot hboot)
  have hcfg : s.cfg = c := by
    obtain ⟨-, -, rfl⟩ := boot_eq_next hboot
    rfl
  exact ⟨hinv.pcBounded,
    hreach.keeps (P := fun u => u.cfg = c) (fun u v hu h => (stepKeepsTheConfiguration u v h).trans hu) hcfg,
    hinv⟩

end Sys2Proof.Machine
end

section
/-! PROOFS. 20_memory.md sections 1 and 4, and operands read before the write of 41_alu.md section 1. -/

namespace Sys2Proof.Machine

/-- Settles O26: the four answers of a load and a store. -/
theorem outOfRangeAccessFaults : Obligations.OutOfRangeAccessFaults := fun _ _ v =>
  ⟨fun h => ⟨State.memRead_of_ge h, State.memWrite_of_ge h v⟩,
    fun h => ⟨⟨_, State.memRead_of_lt h⟩, _, State.memWrite_of_lt h v⟩⟩

/-- Settles O27: a store changes one cell (`Memory.read_write`), and fetch reads its three. -/
theorem fetchSeesTheLatestWrite : Obligations.FetchSeesTheLatestWrite := by
  intro s t a p v hm h hp
  obtain ⟨-, rfl⟩ := State.memWrite_eq_ok.mp h
  simp only [← Memory.read_write hm]
  exact State.fetch_eq_ok.mpr ⟨hp, rfl⟩

/-! ### One register as both operands (41_alu.md R118) -/

/-- What an ALU instruction that does not fault leaves in its destination. -/
theorem exec_alu_result (s : State) {m : Mnemonic} (hm : m ∈ aluMnemonics) {a b : Fin 8} {v : Byte}
    (h : aluApply m s.x[a] s.x[b] = .ok v) :
    ∃ t, exec (m.toInstr (registerByte a) (registerByte b)) s = .next t ∧ t.x[a] = v :=
  ⟨_, exec_alu_of_ok hm h, Vector.getElem_set_self a.isLt⟩

theorem aluAdd_self (a : Byte) : (aluAdd a a).toNat = 2 * a.toNat % 256 := by
  rw [aluAdd_eq, byte_ofNat_mod, BitVec.toNat_ofNat, ← Nat.two_mul]

/-- SUB is the difference of the bytes. -/
theorem aluSub_eq_sub (a b : Byte) : aluSub a b = a - b := by
  rw [aluSub_eq]
  split
  · bv_omega
  · bv_omega

theorem aluDiv_self {a : Byte} (ha : a ≠ 0) : aluDiv a a = .ok 1 := by
  have hpos : 0 < a.toNat := Nat.pos_of_ne_zero fun h => ha (BitVec.eq_of_toNat_eq h)
  rw [aluDiv_of_ne_zero ha, Nat.div_self hpos]
  rfl

/-- Settles O33: the results of the operations on one value twice, and SUB on the stack pointer. -/
theorem operandsAreReadBeforeTheWrite : Obligations.OperandsAreReadBeforeTheWrite := by
  intro s r b
  refine ⟨?_, ?_, ?_, fun hr => ?_, ?_⟩
  · obtain ⟨t, ht, hx⟩ := exec_alu_result s (m := .add) (by decide) (a := r) (b := r) rfl
    exact ⟨t, ht, hx ▸ aluAdd_self _⟩
  · exact exec_alu_result s (m := .sub) (by decide)
      (congrArg Except.ok ((aluSub_eq_sub _ _).trans (BitVec.sub_self _)))
  · exact exec_alu_result s (m := .xor) (by decide) (congrArg Except.ok BitVec.xor_self)
  · exact exec_alu_result s (m := .div) (by decide) (aluDiv_self hr)
  · exact exec_alu_result s (m := .sub) (by decide) (a := 7) (congrArg Except.ok (aluSub_eq_sub _ _))

end Sys2Proof.Machine
end

section
/-! PROOFS. 42_compare_branch.md: what CMP writes and where the jumps go; and 10_state.md R31: that only the E
bit of `FL` is read, said by putting other flags in place of a state's. -/

namespace Sys2Proof.Machine

/-! ### Compare and branch -/

/-- Settles O34: the operands name registers, and `compareFlags` is the statement's case distinction. -/
theorem cmpWritesTheUnsignedOrder : Obligations.CmpWritesTheUnsignedOrder := by
  intro s a b
  rw [exec, execCmp, registerPair_registerByte, bind_ok_left]
  rfl

/-- A branch through a register goes to its value or falls through to the next instruction. -/
theorem branchIf_registerByte (m : Mnemonic) (taken : Bool) (s : State) (a : Fin 8) :
    branchIf m taken (registerByte a) s =
      .next { s with pc := if taken then s.x[a].toNat else s.pc + 1 + m.arity } := by
  rw [branchIf, registerOperand_registerByte, bind_ok_left]
  cases taken <;> rfl

/-- Settles O36: JMP is a taken branch; JEQ and JNE branch on the E bit and its negation. -/
theorem jumpsGoThroughRegisters : Obligations.JumpsGoThroughRegisters := by
  intro s a
  refine ⟨branchIf_registerByte .jmp true s a, branchIf_registerByte .jeq s.flagEqual s a, ?_⟩
  have hjne := branchIf_registerByte .jne (!s.flagEqual) s a
  simp only [Bool.not_eq_true', ← Bool.not_eq_true, ite_not] at hjne
  exact hjne

/-! ### Other flags in place of a state's (10_state.md R31) -/

/-- An outcome with flags `v`. -/
def outcomeWithFlags (v : Byte) : Host.Outcome State Fault Refusal → Host.Outcome State Fault Refusal
  | .next t => .next (t.setFlags v)
  | .fault r => .fault r
  | .refused r => .refused r

section

variable (v : Byte) (s : State)

@[simp] theorem State.setFlags_reg (r : Fin 8) : (s.setFlags v).reg r = s.reg r := rfl
@[simp] theorem State.setFlags_sp : (s.setFlags v).sp = s.sp := rfl
@[simp] theorem State.setFlags_stackTop : (s.setFlags v).stackTop = s.stackTop := rfl
@[simp] theorem State.setFlags_setReg (r : Fin 8) (w : Byte) :
    (s.setFlags v).setReg r w = (s.setReg r w).setFlags v := rfl
@[simp] theorem State.setFlags_emit (w : Byte) : (s.setFlags v).emit w = (s.emit w).setFlags v := rfl
@[simp] theorem State.setFlags_jump (w : Byte) : (s.setFlags v).jump w = (s.jump w).setFlags v := rfl
@[simp] theorem State.setFlags_advance (m : Mnemonic) :
    (s.setFlags v).advance m = (s.advance m).setFlags v := rfl
@[simp] theorem State.setFlags_closeSlot : (s.setFlags v).closeSlot = s.closeSlot.setFlags v := rfl

@[simp] theorem State.setFlags_openSlot :
    (s.setFlags v).openSlot = (fun t => t.setFlags v) <$> s.openSlot := by
  unfold State.openSlot
  rw [State.setFlags_sp]
  split_ifs <;> rfl

@[simp] theorem State.setFlags_memWrite (a : Nat) (w : Byte) :
    (s.setFlags v).memWrite a w = (fun t => t.setFlags v) <$> s.memWrite a w := by
  unfold State.memWrite
  rw [State.setFlags_cfg]
  split_ifs <;> rfl

/-- A handler whose result is the old one with flags `v` ends its step so too, faulting or not. -/
theorem finish_setFlags (r : Except FaultCause State) :
    finish (s.setFlags v) ((fun t => t.setFlags v) <$> r) = outcomeWithFlags v (finish s r) := by
  cases r <;> rfl

theorem aluInstr_setFlags (m : Mnemonic) (rA rB : Byte) :
    aluInstr m rA rB (s.setFlags v) = outcomeWithFlags v (aluInstr m rA rB s) := by
  simp [aluInstr, ← finish_setFlags]

theorem aluInstrOne_setFlags (m : Mnemonic) (rA : Byte) :
    aluInstrOne m rA (s.setFlags v) = outcomeWithFlags v (aluInstrOne m rA s) := by
  simp [aluInstrOne, ← finish_setFlags]

theorem branchIf_setFlags (m : Mnemonic) (taken : Bool) (rA : Byte) :
    branchIf m taken rA (s.setFlags v) = outcomeWithFlags v (branchIf m taken rA s) := by
  cases taken <;> simp [branchIf, ← finish_setFlags]

/-- An instruction other than CMP carries `FL` along and reads none of it, but for the E bit where it is JEQ
or JNE. -/
theorem exec_setFlags {i : Instr} (hcmp : i.mnemonic ≠ .cmp)
    (hequal : i.mnemonic ∈ [Mnemonic.jeq, .jne] → (s.setFlags v).flagEqual = s.flagEqual) :
    exec i (s.setFlags v) = outcomeWithFlags v (exec i s) := by
  cases i with
  | cmp => exact absurd rfl hcmp
  | nop | hlt | iret => rfl
  | ret => simp [exec, execRet, ← finish_setFlags]
  | push => simp [exec, execPush, ← finish_setFlags]
  | pop => simp [exec, execPop, ← finish_setFlags]
  | call => simp [exec, execCall, ← finish_setFlags]
  | ldi => simp [exec, execLdi, ← finish_setFlags]
  | prn => simp [exec, execPrn, ← finish_setFlags]
  | jmp => exact branchIf_setFlags v s _ _ _
  | jeq | jne =>
    simp only [exec, execJeq, execJne, hequal (by simp [Instr.mnemonic])]
    exact branchIf_setFlags v s _ _ _
  | add | sub | mul | div | mod | and | or | xor | shl | shr => exact aluInstr_setFlags v s _ _ _
  | not => exact aluInstrOne_setFlags v s _ _

end

/-- Settles O37: `exec_setFlags`; CMP overwrites `FL` whatever it held; and at reset E is clear. -/
theorem onlyTheEqualBitIsRead : Obligations.OnlyTheEqualBitIsRead := by
  refine ⟨fun s t i v hcmp hequal h => ?_, fun s a b v => ?_, fun a => ?_⟩
  · exact (exec_setFlags v s hcmp hequal).trans (by rw [h]; rfl)
  · rw [cmpWritesTheUnsignedOrder, cmpWritesTheUnsignedOrder]
  · obtain ⟨-, hjeq, hjne⟩ := jumpsGoThroughRegisters State.reset a
    exact ⟨hjeq, hjne⟩

end Sys2Proof.Machine
end

section
/-! PROOFS. 43_stack_call.md: what PUSH, POP, CALL and RET do, and that each pair undoes its first half. -/

namespace Sys2Proof.Machine

/-! ### The storing instructions -/

/-- The state with SP moved down by one. -/
def State.spDown (s : State) : State :=
  s.setReg 7 (BitVec.ofNat 8 (s.x[7].toNat - 1))

theorem byte_toNat_ofNat_sub_one (v : Byte) : (BitVec.ofNat 8 (v.toNat - 1)).toNat = v.toNat - 1 :=
  Nat.mod_eq_of_lt ((Nat.sub_le _ _).trans_lt v.isLt)

section

variable {s : State} {a : Fin 8} {v : Fin 8 → State → Byte} {k : Fin 8 → State → State}

/-- A register read after SP has moved down. -/
theorem State.reg_spDown : s.spDown.reg a = if a = 7 then BitVec.ofNat 8 (s.x[7].toNat - 1) else s.x[a] := by
  split
  case isTrue ha => rw [ha, State.spDown, State.reg_setReg_same]
  case isFalse ha => exact State.reg_setReg_other s _ ha

theorem State.toNat_reg_spDown :
    (s.spDown.reg a).toNat = if a = 7 then s.x[7].toNat - 1 else s.x[a].toNat := by
  rw [State.reg_spDown, apply_ite BitVec.toNat, byte_toNat_ofNat_sub_one]

theorem State.openSlot_of_zero (h : s.x[7].toNat = 0) : s.openSlot = .error .stackOverflow :=
  if_pos (BitVec.eq_of_toNat_eq h)

theorem State.openSlot_of_ne_zero (h : s.x[7].toNat ≠ 0) : s.openSlot = .ok s.spDown := by
  refine State.openSlot_eq_ok.mpr ⟨fun h0 => h (congrArg BitVec.toNat h0), ?_⟩
  rw [State.sp_eq, mask8_sub_one h]
  rfl

/-- A storing instruction with SP = 0 faults. -/
theorem storeHandler_of_zero (h : s.x[7].toNat = 0) :
    storeHandler (registerByte a) v k s = .error .stackOverflow := by
  rw [storeHandler, registerOperand_registerByte, bind_ok_left, State.openSlot_of_zero h, bind_error_left]

/-- A storing instruction otherwise moves SP down, and then stores at the new SP. -/
theorem storeHandler_of_ne_zero (h : s.x[7].toNat ≠ 0) :
    storeHandler (registerByte a) v k s = do
      let stored ← s.spDown.memWrite (s.x[7].toNat - 1) (v a s.spDown)
      return k a stored := by
  have hslot := State.openSlot_of_ne_zero h
  rw [storeHandler, registerOperand_registerByte, bind_ok_left, hslot, bind_ok_left,
    State.sp_of_openSlot hslot]
  rfl

/-- A new SP outside memory faults with that address. -/
theorem storeHandler_of_ge (h : s.x[7].toNat ≠ 0) (hmem : s.cfg.memSize ≤ s.x[7].toNat - 1) :
    storeHandler (registerByte a) v k s = .error (.outOfRangeAccess .memory (s.x[7].toNat - 1)) := by
  rw [storeHandler_of_ne_zero h, State.memWrite_of_ge (s := s.spDown) hmem, bind_error_left]

theorem storeHandler_of_lt (h : s.x[7].toNat ≠ 0) (hmem : s.x[7].toNat - 1 < s.cfg.memSize) :
    storeHandler (registerByte a) v k s =
      .ok (k a { s.spDown with mem := s.mem.write (s.x[7].toNat - 1) (v a s.spDown) }) := by
  rw [storeHandler_of_ne_zero h, State.memWrite_of_lt (s := s.spDown) hmem, bind_ok_left]
  rfl

end

/-- Settles O38: the three answers of a storing instruction, with the register read after SP moved. -/
theorem pushStoresBelowTheStack : Obligations.PushStoresBelowTheStack := by
  intro s a
  simp only [exec, execPush_eq_storeHandler]
  refine ⟨fun h => ?_, fun h hmem => ?_, fun h hmem => ?_⟩
  · rw [storeHandler_of_zero h]
    rfl
  · rw [storeHandler_of_ge h hmem]
    rfl
  · rw [storeHandler_of_lt h hmem, State.reg_spDown]
    rfl

/-- Settles O40: the three answers of a storing instruction, with the target read after SP moved. -/
theorem callPushesItsLiteral : Obligations.CallPushesItsLiteral := by
  intro s a imm
  simp only [exec, execCall_eq_storeHandler]
  refine ⟨fun h => ?_, fun h hmem => ?_, fun h hmem => ?_⟩
  · rw [storeHandler_of_zero h]
    rfl
  · rw [storeHandler_of_ge h hmem]
    rfl
  · rw [storeHandler_of_lt h hmem, ← State.toNat_reg_spDown]
    rfl

/-! ### The popping instructions -/

section

variable {s : State}

theorem State.stackTop_of_ge (h : s.cfg.spInit.toNat ≤ s.x[7].toNat) :
    s.stackTop = .error .stackUnderflow := if_pos h

/-- In an admitted configuration a pop below `SP_INIT` reads memory. -/
theorem State.stackTop_of_lt (hc : s.cfg.wf = true) (h : s.x[7].toNat < s.cfg.spInit.toNat) :
    s.stackTop = .ok (s.mem.read s.x[7].toNat) :=
  State.stackTop_eq_ok.mpr ⟨h, h.trans_le (Config.spInit_le_memSize hc), rfl⟩

end

@[simp] theorem State.setReg_setReg (s : State) (r : Fin 8) (v w : Byte) :
    (s.setReg r v).setReg r w = s.setReg r w := by
  simp [State.setReg]

/-- SP moves up by one from the value it holds. -/
theorem State.closeSlot_eq (s : State) : s.closeSlot = s.setReg 7 (BitVec.ofNat 8 (s.x[7].toNat + 1)) := by
  rw [State.closeSlot, mask8_add_one]
  rfl

/-- Settles O39: `stackTop` answers the fault or the byte; SP moves up from its old value, or with `rA` = r7
from the byte. -/
theorem popLoadsTheTop : Obligations.PopLoadsTheTop := by
  intro s a hc
  simp only [exec, execPop, registerOperand_registerByte, bind_ok_left]
  refine ⟨fun h => ?_, fun h ha => ?_, fun h ha => ?_⟩
  · rw [State.stackTop_of_ge h]
    rfl
  · rw [State.stackTop_of_lt hc h, bind_ok_left, State.closeSlot_eq]
    have hsp : (s.setReg a (s.mem.read s.x[7].toNat)).x[7] = s.x[7] := State.reg_setReg_other s _ ha.symm
    rw [hsp]
    rfl
  · subst ha
    have hsp : (s.setReg 7 (s.mem.read s.x[7].toNat)).x[7] = s.mem.read s.x[7].toNat :=
      State.reg_setReg_same s 7 _
    rw [State.stackTop_of_lt hc h, bind_ok_left, State.closeSlot_eq, hsp, State.setReg_setReg]
    rfl

/-- Settles O41: `stackTop` answers the fault or the byte, which becomes `pc`. -/
theorem retPopsIntoPc : Obligations.RetPopsIntoPc := by
  intro s hc
  refine ⟨fun h => ?_, fun h => ?_⟩
  · rw [exec, execRet, State.stackTop_of_ge h]
    rfl
  · rw [exec, execRet, State.stackTop_of_lt hc h, bind_ok_left, State.closeSlot_eq]
    rfl

/-! ### Round trips (43_stack_call.md section 3) -/

theorem byte_ofNat_sub_one_add_one {v : Byte} (h : v.toNat ≠ 0) : BitVec.ofNat 8 (v.toNat - 1 + 1) = v := by
  rw [Nat.sub_add_cancel (Nat.one_le_iff_ne_zero.mpr h), BitVec.ofNat_toNat, BitVec.setWidth_eq]

/-- Two registers given back what they held: the registers are as before. -/
theorem set_set_self (x : Vector Byte 8) (a b : Fin 8) (v : Byte) :
    ((x.set a v).set b x[b]).set a x[a] = x := by
  refine Vector.ext fun k hk => ?_
  simp only [Vector.getElem_set]
  split_ifs with ha hb
  · subst ha; rfl
  · subst hb; rfl
  · rfl

/-- Settles O42: PUSH and then POP by their effects; the byte popped is the one pushed, and SP goes down and up
by one. -/
theorem pushThenPopRoundTrip : Obligations.PushThenPopRoundTrip := by
  intro s a hc hm hpos hle
  have hne : s.x[7].toNat ≠ 0 := by omega
  have hmem := Config.spInit_le_memSize hc
  obtain ⟨-, -, hpush⟩ := pushStoresBelowTheStack s a
  obtain ⟨t, ht, hx, hwrite, hcfg, hrun⟩ :
      ∃ t, exec (.push (registerByte a)) s = .next t ∧
        t.x = s.x.set 7 (BitVec.ofNat 8 (s.x[7].toNat - 1)) ∧
        t.mem = s.mem.write (s.x[7].toNat - 1)
          (if a = 7 then BitVec.ofNat 8 (s.x[7].toNat - 1) else s.x[a]) ∧
        t.cfg = s.cfg ∧ t.run = s.run :=
    ⟨_, hpush hne (by omega), rfl, rfl, rfl, rfl⟩
  have hsp : t.x[7].toNat = s.x[7].toNat - 1 := by
    rw [hx, Vector.getElem_set_self, byte_toNat_ofNat_sub_one]
  have hread := Memory.read_write hm (s.x[7].toNat - 1)
    (if a = 7 then BitVec.ofNat 8 (s.x[7].toNat - 1) else s.x[a])
  rw [← hwrite] at hread
  obtain ⟨u, hu, hux, hurun, humem⟩ :
      ∃ u, exec (.pop (registerByte a)) t = .next u ∧ u.x = s.x ∧ u.run = t.run ∧ u.mem = t.mem := by
    obtain ⟨-, hother, hsame⟩ := popLoadsTheTop t a (hcfg ▸ hc)
    rw [hsp, hread, if_pos rfl, hcfg] at hother hsame
    rcases eq_or_ne a 7 with ha | ha
    · refine ⟨_, hsame (by omega) ha, ?_, rfl, rfl⟩
      rw [if_pos ha, byte_toNat_ofNat_sub_one, byte_ofNat_sub_one_add_one hne, hx, Vector.set_set,
        Vector.set_getElem_self]
    · refine ⟨_, hother (by omega) ha, ?_, rfl, rfl⟩
      rw [if_neg ha, byte_ofNat_sub_one_add_one hne, hx]
      exact set_set_self s.x 7 a _
  refine ⟨t, u, ht, hu, hux, hurun.trans hrun, ?_, fun b hb => ?_⟩
  · rw [humem, hread, if_pos rfl]
  · rw [humem, hread, if_neg hb]

/-- Settles O43: CALL by its effect; RET then pops the literal, which a well-behaved subroutine left at SP. -/
theorem callThenRetReturns : Obligations.CallThenRetReturns := by
  intro s a imm hc hm hpos hle
  have hne : s.x[7].toNat ≠ 0 := by omega
  have hmem := Config.spInit_le_memSize hc
  obtain ⟨-, -, hcall⟩ := callPushesItsLiteral s a imm
  have hsp : s.spDown.x[7].toNat = s.x[7].toNat - 1 := State.toNat_reg_spDown (a := 7)
  refine ⟨_, hcall hne (by omega), hsp, State.toNat_reg_spDown.symm, fun q hq => State.reg_setReg_other s _ hq,
    fun u hcfg hx hkept => ?_⟩
  have husp : u.x[7].toNat = s.x[7].toNat - 1 := (congrArg BitVec.toNat hx).trans hsp
  have hread : u.mem.read (s.x[7].toNat - 1) = imm := by
    change u.mem.read s.spDown.x[7].toNat = (s.mem.write _ imm).read s.spDown.x[7].toNat at hkept
    rwa [hsp, Memory.read_write hm, if_pos rfl] at hkept
  obtain ⟨-, hret⟩ := retPopsIntoPc u (hcfg ▸ hc)
  rw [husp, hcfg, hread, byte_ofNat_sub_one_add_one hne] at hret
  exact ⟨_, hret (by change s.x[7].toNat - 1 < s.cfg.spInit.toNat; omega), rfl, Vector.getElem_set_self _⟩

end Sys2Proof.Machine
end

section
/-! PROOFS. 44_control_io.md: NOP and IRET; and the fault codes of 60_exceptions.md section 1. -/

namespace Sys2Proof.Machine

/-- Settles O45: the engine's advance alone. -/
theorem nopOnlyAdvances : Obligations.NopOnlyAdvances := fun _ => rfl

/-- Settles O47: the two meanings are the same halt, and both have arity 0. -/
theorem iretHaltsLikeHlt : Obligations.IretHaltsLikeHlt := ⟨exec_hlt, fun _ => rfl⟩

/-- Settles O20, cause by cause. -/
theorem faultCodes : Obligations.FaultCodes :=
  ⟨rfl, rfl, rfl, rfl, fun _ _ => rfl, fun _ => rfl⟩

end Sys2Proof.Machine
end
